-- ==== Sys2Proof/Word.lean ====
section
/-! DEFINITION. The two widths of the machine: 4-bit values and 8-bit instruction bytes
(spec/00_scope.md R8, R10, R11). All values are unsigned. -/

namespace Sys2Proof

/-- A 4-bit unsigned value: register, port cell, program counter, opcode or operand (R8). -/
abbrev Nibble := BitVec 4

/-- An 8-bit unsigned instruction byte (R8, R70). -/
abbrev Byte := BitVec 8

end Sys2Proof
end

