-- ==== Sys2Proof/Syntax.lean ====
section
/-! DEFINITION. The instructions: one constructor per row of spec/opcode_table.json
(spec/30_encoding.md R74, R75). Every constructor but `nop` carries the operand field `imm`, also
where the Engine does not read it (R76), so that no bit of an encoding is dropped. -/

namespace Sys2Proof

/-- The twelve instructions, the table's row `NOP` (the whole byte 0x00) and the four illegal opcodes. -/
inductive Instr where
  /-- ADD_A, opcode 0000: `add a, imm` (R110). -/
  | addA (imm : Nibble)
  /-- MOV_A_B, opcode 0001: `mov a, b`; the operand is not read (R120, R76). -/
  | movAB (imm : Nibble)
  /-- IN_A, opcode 0010: `in a`; the operand is not read (R130, R76). -/
  | inA (imm : Nibble)
  /-- MOV_A_IMM, opcode 0011: `mov a, imm` (R121). -/
  | movAImm (imm : Nibble)
  /-- MOV_B_A, opcode 0100: `mov b, a`; the operand is not read (R122, R76). -/
  | movBA (imm : Nibble)
  /-- ADD_B, opcode 0101: `add b, imm` (R111). -/
  | addB (imm : Nibble)
  /-- IN_B, opcode 0110: `in b`; the operand is not read (R131, R76). -/
  | inB (imm : Nibble)
  /-- MOV_B_IMM, opcode 0111: `mov b, imm` (R123). -/
  | movBImm (imm : Nibble)
  /-- OUT_B, opcode 1001: `out b`, which outputs `B + imm` (R132). -/
  | outB (imm : Nibble)
  /-- OUT_IMM, opcode 1011: `out imm` (R133). -/
  | outImm (imm : Nibble)
  /-- JNC, opcode 1110: `jnc imm` (R140). -/
  | jnc (imm : Nibble)
  /-- JMP, opcode 1111: `jmp imm`, the halt idiom when `imm` is its own address (R141, R142). -/
  | jmp (imm : Nibble)
  /-- NOP: the byte 0x00, executed as `add a, 0` (R77, R112; log entry 2). -/
  | nop
  /-- ILLEGAL_1000: the step returns `InvalidOpcode(8)` (R75, R173). -/
  | illegal1000 (imm : Nibble)
  /-- ILLEGAL_1010: the step returns `InvalidOpcode(10)` (R75, R173). -/
  | illegal1010 (imm : Nibble)
  /-- ILLEGAL_1100: the step returns `InvalidOpcode(12)` (R75, R173). -/
  | illegal1100 (imm : Nibble)
  /-- ILLEGAL_1101: the step returns `InvalidOpcode(13)` (R75, R173). -/
  | illegal1101 (imm : Nibble)
  deriving DecidableEq, Repr

/-- Why a byte stream gives no instruction. Every byte decodes (R73), so this is the only reason. -/
inductive DecodeError where
  /-- The stream is empty: there is no byte to decode. -/
  | noByte
  deriving DecidableEq, Repr

end Sys2Proof
end

