-- ==== Sys2Proof/WellFormed.lean ====
section
/-! DEFINITION. Well-formed instructions: the terms that stand for a byte, one term per byte. -/

namespace Sys2Proof

/-- Every operand value is legal for every opcode (spec/30_encoding.md R73, R76). The one check: the
byte 0x00, which is `add a, 0`, has the table's own name `NOP`, so the term `addA 0` is not the
decoder's (log entry 2). Its meaning is `nop`'s all the same. -/
def WellFormed (i : Instr) : Bool :=
  match i with
  | .addA imm => imm != 0
  | .movAB _ => true
  | .inA _ => true
  | .movAImm _ => true
  | .movBA _ => true
  | .addB _ => true
  | .inB _ => true
  | .movBImm _ => true
  | .outB _ => true
  | .outImm _ => true
  | .jnc _ => true
  | .jmp _ => true
  | .nop => true
  | .illegal1000 _ => true
  | .illegal1010 _ => true
  | .illegal1100 _ => true
  | .illegal1101 _ => true

end Sys2Proof
end

