-- ==== Sys2Proof/Decode.lean ====
section
/-! DEFINITION. Bytes to instructions and back (spec/30_encoding.md R70 to R76). Decoding is total on
all 256 byte values and depends on nothing but the byte (R73). The encoder follows. -/

namespace Sys2Proof

/-- Bits 7 to 4 of an instruction byte (R71). -/
def opcodeField (b : Byte) : Nibble := b.extractLsb' 4 4

/-- Bits 3 to 0 of an instruction byte (R71, R72). -/
def immField (b : Byte) : Nibble := b.extractLsb' 0 4

/-- The byte with the given fields: `opcode * 16 + imm` (R71). -/
def joinFields (opcode imm : Nibble) : Byte := opcode ++ imm

/-- The opcode map (R74) with the illegal opcodes (R75), one case per value of the opcode field, bit 3 first. -/
def decodeFields (opcode imm : Nibble) : Instr :=
  match opcode[3], opcode[2], opcode[1], opcode[0] with
  | false, false, false, false => .addA imm
  | false, false, false, true => .movAB imm
  | false, false, true, false => .inA imm
  | false, false, true, true => .movAImm imm
  | false, true, false, false => .movBA imm
  | false, true, false, true => .addB imm
  | false, true, true, false => .inB imm
  | false, true, true, true => .movBImm imm
  | true, false, false, false => .illegal1000 imm
  | true, false, false, true => .outB imm
  | true, false, true, false => .illegal1010 imm
  | true, false, true, true => .outImm imm
  | true, true, false, false => .illegal1100 imm
  | true, true, false, true => .illegal1101 imm
  | true, true, true, false => .jnc imm
  | true, true, true, true => .jmp imm

/-- The instruction a byte stands for. The whole byte 0x00 takes the table's narrower row `NOP`
(mask 0xFF), every other byte the row of its opcode (mask 0xF0) (log entry 2). -/
def decodeByte (b : Byte) : Instr :=
  if b = 0x00 then .nop else decodeFields (opcodeField b) (immField b)

/-- Decode the first instruction of a byte stream and return the bytes after it. Every instruction is
exactly one byte (R70); only the empty stream is rejected, by name. -/
def decode (bytes : List Byte) : Except DecodeError (Instr × List Byte) :=
  match bytes with
  | [] => .error .noByte
  | b :: rest => .ok (decodeByte b, rest)

/-- The opcode of an instruction (R74, R75). `nop` is the byte 0x00, whose opcode is 0000 (R77). -/
def opcodeOf (i : Instr) : Nibble :=
  match i with
  | .addA _ => 0b0000
  | .movAB _ => 0b0001
  | .inA _ => 0b0010
  | .movAImm _ => 0b0011
  | .movBA _ => 0b0100
  | .addB _ => 0b0101
  | .inB _ => 0b0110
  | .movBImm _ => 0b0111
  | .illegal1000 _ => 0b1000
  | .outB _ => 0b1001
  | .illegal1010 _ => 0b1010
  | .outImm _ => 0b1011
  | .illegal1100 _ => 0b1100
  | .illegal1101 _ => 0b1101
  | .jnc _ => 0b1110
  | .jmp _ => 0b1111
  | .nop => 0b0000

/-- The operand field of an instruction (R71). -/
def immOf (i : Instr) : Nibble :=
  match i with
  | .addA imm => imm
  | .movAB imm => imm
  | .inA imm => imm
  | .movAImm imm => imm
  | .movBA imm => imm
  | .addB imm => imm
  | .inB imm => imm
  | .movBImm imm => imm
  | .illegal1000 imm => imm
  | .outB imm => imm
  | .illegal1010 imm => imm
  | .outImm imm => imm
  | .illegal1100 imm => imm
  | .illegal1101 imm => imm
  | .jnc imm => imm
  | .jmp imm => imm
  | .nop => 0

/-- The byte of an instruction (R71). -/
def encodeByte (i : Instr) : Byte := joinFields (opcodeOf i) (immOf i)

/-- The words of an instruction: one byte (R70). -/
def encode (i : Instr) : List Byte := [encodeByte i]

/-- `n` bytes of the number `w`, the least significant first: the layout in which
spec/opcode_table.json numbers an instruction's bits. -/
def bytesOfWord (n w : Nat) : List Byte :=
  match n with
  | 0 => []
  | m + 1 => BitVec.ofNat 8 w :: bytesOfWord m (w / 256)

/-- The instruction the decoder reads from a table word of `nbits` bits (whole bytes; at least the one
byte every instruction has). -/
def decodeTableWord (nbits w : Nat) : Option Instr :=
  match decode (bytesOfWord (max 1 (nbits / 8)) w) with
  | .ok (i, _) => some i
  | .error _ => none

end Sys2Proof
end

