-- ==== Sys2Proof/Config.lean ====
section
/-! DEFINITION. What is fixed for the machine. The instruction set leaves no size to an implementation
(spec/00_scope.md R8), and no instruction has an undefined result. The one free value belongs to the
signal view of spec/10_state.md R40, not to the machine. -/

namespace Sys2Proof

/-- The four values of the 2-bit outcome signal (spec/10_state.md R40). It carries no payload. Which two
bits stand for which value is not stated (spec/91_not_in_source.md N24), so the values keep their names. -/
inductive OutcomeSignal where
  | ok
  | halted
  | immediateOverflow
  | invalidOpcode
  deriving DecidableEq, Repr, Inhabited

end Sys2Proof

namespace Sys2Proof.Config

/-- The number of bytes of the program store: exactly 16 (spec/10_state.md R34). -/
abbrev storeSize : Nat := 16

/-- What an address of the store reads as when the model lists no byte for it: the padding byte of
spec/70_reset_and_hazards.md R203 (DESIGN CHOICE for the store of `State.reset`, log entry 3). -/
def unlistedByte : Byte := 0x00

/-- The named parameter `add_disarms_latch` of spec/92_eei_decisions.md D15 at its default. With
`false` the three adding instructions leave the drop latch alone, as spec/90_conflicts.md C4 resolves
it (spec/10_state.md R27). -/
def addDisarmsLatch : Bool := false

/-- The named parameter `disasm_opcode0_all_nop` of spec/92_eei_decisions.md D7 at its default. With
`false` only the byte 0x00 is printed `nop`, as spec/90_conflicts.md C3 resolves it
(spec/45_disassembler.md R155). -/
def disasmOpcode0AllNop : Bool := false

/-- FREE VALUE, and a DESIGN CHOICE that there is one (log entry 22): what the outcome signal shows
after an edge that performs no step, and before the first edge. Rule R40 gives the signal only for an
edge that performs a step. It has no body: a claim holds whatever is shown. The argument counts the
edges, so that the value need not be the same twice. -/
opaque outcomeWithoutStep : Nat → OutcomeSignal

end Sys2Proof.Config
end

