-- ==== Sys2Proof/Machine/Flags.lean ====
section
/-! DEFINITION. The adder and the carry mechanism as functions of bits: `add4` (spec/40_step_cycle.md
R96), the carry-latch update (R95, spec/10_state.md R27) and the flag write of an add (R26). -/

namespace Sys2Proof.Machine

/-- The pair `(sum, cout)` of the adder (R15, R96). -/
structure AddResult where
  sum : Nibble
  carry : Bool
  deriving DecidableEq, Repr

/-- The machine's only arithmetic (R96): the integer sum, reduced mod 16, with the carry out of bit 3.
There is no carry input. -/
def add4 (x y : Nibble) : AddResult :=
  let t := x.toNat + y.toNat
  { sum := BitVec.ofNat 4 t, carry := decide (15 < t) }

/-- The pair `(C, D)` of the carry flag and its drop latch (R28). -/
structure CarryPair where
  flag : Bool
  latch : Bool
  deriving DecidableEq, Repr

/-- The carry-latch update `U` (R95): the two alternatives are tested against the values on entry. -/
def ageCarry (p : CarryPair) : CarryPair :=
  if p.flag && p.latch then { flag := false, latch := false }
  else if p.flag then { flag := true, latch := true }
  else p

/-- The flag write of an adding instruction (R26): `C` takes the carry out, and `D` is left as the
latch update left it (R27; D15), unless the parameter `add_disarms_latch` is set. -/
def carryOfAdd (disarms : Bool) (cout : Bool) (p : CarryPair) : CarryPair :=
  { flag := cout, latch := if disarms then false else p.latch }

end Sys2Proof.Machine
end

