-- ==== Sys2Proof/Machine/State.lean ====
section
/-! DEFINITION. The state of the machine (spec/10_state.md R20), the outcome a step returns
(spec/60_exceptions.md R170), the reasons to stop, and the state after reset (R39). -/

namespace Sys2Proof.Machine

/-- The program store (R34) as a list of (address, byte) pairs in one canonical form: see `Memory.wf`. -/
abbrev Memory := List Host.Cell

/-- What a step returns to the host (R170): a closed enumeration without numeric codes (D8).
`RomOverflow` is the loader's and not one of these (R174). -/
inductive StepOutcome where
  /-- "success with no value". -/
  | ok
  /-- The halt idiom was fetched; normal termination, not a fault (R171). -/
  | halted
  /-- The operand exceeds 0x0F; unreachable, but modelled (R172). The payload is the operand. -/
  | immediateOverflow (value : Nibble)
  /-- One of the four illegal opcodes was fetched; the payload is the 4-bit opcode (R173). -/
  | invalidOpcode (opcode : Nibble)
  deriving DecidableEq, Repr

/-- The whole state (R20), and one field of the model's own, `outcome`. -/
structure State where
  /-- General register `A` (R21). -/
  a : Nibble
  /-- General register `B` (R22). -/
  b : Nibble
  /-- Program counter (R24). -/
  pc : Nibble
  /-- Carry flag `C` (R26). -/
  c : Bool
  /-- Hidden drop latch `D` (R27, R35). -/
  d : Bool
  /-- Input port cell `IN` (R30). -/
  inPort : Nibble
  /-- Output port cell `OUT` (R31). -/
  outPort : Nibble
  /-- Program store, owned by the host (R34). -/
  prog : Memory
  /-- The model's own field: the outcome the last step returned, `none` when no step was taken since
  reset. It stands for the value a step returns to the host (R33, R170), and no step reads it
  (DESIGN CHOICE, log entry 1). -/
  outcome : Option StepOutcome
  deriving DecidableEq, Repr

/-- Reasons for the machine to stop with a fault. The outcomes of a step are not faults of this type:
they are next states (log entry 1). -/
inductive Fault where
  /-- Raised by an access to the program store at an address of 16 or more, which does not exist
  (R34, R57). No step can raise it, since `pc` is 4 bits (R24, R91). Safe. -/
  | noSuchAddress (address : Nat)
  deriving DecidableEq, Repr

/-- Reasons to refuse an instruction. -/
inductive Refusal where
  /-- Raised by `exec` for an instruction that has no meaning yet; every instruction has one, so
  nothing raises it. Safe. -/
  | notModelled (mnemonic : String)
  deriving DecidableEq, Repr

/-- The machine right after reset (R39). The store is the empty, zeroed 16-slot program (R203): the
reset operation itself leaves the store untouched (log entry 3). -/
def State.reset : State where
  a := 0
  b := 0
  pc := 0
  c := false
  d := false
  inPort := 0
  outPort := 0
  prog := []
  outcome := none

end Sys2Proof.Machine
end

