-- ==== Sys2Proof/Machine/Memory.lean ====
section
/-! DEFINITION. The program store as data: reading and writing one byte, the canonical form, and a
store made from a list of bytes (spec/20_memory.md R50 to R57, spec/10_state.md R34). Only the host
writes it (R53, R63). -/

namespace Sys2Proof.Machine

/-- The byte listed for address `a`, or the byte an unlisted address reads as. -/
def Memory.peek (m : Memory) (a : Nat) : Byte :=
  match m with
  | [] => Config.unlistedByte
  | (k, v) :: rest => if k = a then v else Memory.peek rest a

/-- `MemRead(a, 1)` (spec/00_scope.md R13): addresses of 16 and more do not exist (R34, R57). -/
def Memory.read (m : Memory) (a : Nat) : Except Fault Byte :=
  if a < Config.storeSize then .ok (Memory.peek m a) else .error (.noSuchAddress a)

/-- Put byte `v` at address `a`, keeping the canonical form: the address stays in rising order, and an
entry equal to what an unlisted address reads as is not listed. -/
def Memory.poke (m : Memory) (a : Nat) (v : Byte) : Memory :=
  match m with
  | [] => if v = Config.unlistedByte then [] else [(a, v)]
  | (k, w) :: rest =>
    if a < k then
      if v = Config.unlistedByte then (k, w) :: rest else (a, v) :: (k, w) :: rest
    else if a = k then
      if v = Config.unlistedByte then rest else (a, v) :: rest
    else (k, w) :: Memory.poke rest a v

/-- A host write of one byte of the store (R63); addresses of 16 and more do not exist. -/
def Memory.write (m : Memory) (a : Nat) (v : Byte) : Except Fault Memory :=
  if a < Config.storeSize then .ok (Memory.poke m a v) else .error (.noSuchAddress a)

/-- Addresses rise strictly from `lo`, lie in the store, and no entry is the unlisted byte. -/
def Memory.wfFrom (lo : Nat) (m : Memory) : Bool :=
  match m with
  | [] => true
  | (k, v) :: rest =>
    decide (lo ≤ k) && decide (k < Config.storeSize) && (v != Config.unlistedByte) &&
      Memory.wfFrom (k + 1) rest

/-- The one canonical form of a program store. -/
def Memory.wf (m : Memory) : Bool := Memory.wfFrom 0 m

/-- The store that holds `bytes` from address `base` on, byte `i` at `base + i` (R54), and the
padding byte everywhere else (R203). -/
def Memory.ofBytes (base : Nat) (bytes : List Byte) : Memory :=
  match bytes with
  | [] => []
  | v :: rest =>
    if v = Config.unlistedByte then Memory.ofBytes (base + 1) rest
    else (base, v) :: Memory.ofBytes (base + 1) rest

/-- The sixteen bytes of the store in address order, as the host reads them (R37). -/
def Memory.dump (m : Memory) : List Byte := (List.range Config.storeSize).map (Memory.peek m)

end Sys2Proof.Machine
end

