-- ==== Sys2Proof/Machine/Operands.lean ====
section
/-! DEFINITION. The operand forms: an instruction names its registers by its opcode alone, and the
immediate is the 4-bit operand as it stands (spec/10_state.md R23, spec/30_encoding.md R72). -/

namespace Sys2Proof.Machine

/-- Where an instruction takes its value from. -/
inductive Source where
  | regA
  | regB
  | portIn
  | imm (value : Nibble)
  deriving DecidableEq, Repr

/-- Where an instruction puts its result. No instruction writes `IN` (R30). -/
inductive Dest where
  | regA
  | regB
  | portOut
  deriving DecidableEq, Repr

/-- The value of a source operand. Reading has no side effect (spec/20_memory.md R56). -/
def readSource (src : Source) (s : State) : Nibble :=
  match src with
  | .regA => s.a
  | .regB => s.b
  | .portIn => s.inPort
  | .imm value => value

/-- Write one destination and nothing else (R22, R31). -/
def writeDest (dst : Dest) (v : Nibble) (s : State) : State :=
  match dst with
  | .regA => { s with a := v }
  | .regB => { s with b := v }
  | .portOut => { s with outPort := v }

end Sys2Proof.Machine
end

