-- ==== Sys2Proof/Machine/Ops.lean ====
section
/-! DEFINITION. The operations the instructions share: the parts of a step (spec/40_step_cycle.md R90),
returning an outcome (the machine's only kind of exception, spec/60_exceptions.md R177), and the two
shapes of a data transfer. -/

namespace Sys2Proof.Machine

/-- What a step and a meaning answer. -/
abbrev StepResult := Host.Outcome State Fault Refusal

/-- `raise` an outcome (spec/00_scope.md R14): the step ends here, what was written stays written,
nothing is saved, no mode changes, no control goes anywhere, and the outcome is delivered to the host
(R177). There is no return from an outcome (R179): the host recovers by `reset`, a debug write of
`pc` or an edit of `prog[pc]` (Machine/Control.lean). -/
def raiseOutcome (o : StepOutcome) (s : State) : StepResult :=
  .next { s with outcome := some o }

/-- A step that raises nothing ends with `Ok` (R14). -/
def returnOk (s : State) : StepResult :=
  .next { s with outcome := some .ok }

/-- Part 7: `pc <- (pc + 1) mod 16`, then `Ok` (R98). -/
def advance (s : State) : StepResult :=
  returnOk { s with pc := s.pc + 1 }

/-- A taken jump writes the absolute target and skips part 7 (R72, R143). -/
def jumpTo (target : Nibble) (s : State) : StepResult :=
  returnOk { s with pc := target }

/-- Part 5: the carry-latch update on `(C, D)` (R95). -/
def latchUpdate (s : State) : State :=
  let p := ageCarry { flag := s.c, latch := s.d }
  { s with c := p.flag, d := p.latch }

/-- The flag write of the three adding instructions (R26, R27). -/
def writeCarry (cout : Bool) (s : State) : State :=
  let p := carryOfAdd Config.addDisarmsLatch cout { flag := s.c, latch := s.d }
  { s with c := p.flag, d := p.latch }

/-- Parts 4 to 6 around an instruction's own effect (R90): the operand range check, which no 4-bit
operand fails (R94), the carry-latch update (R95), then the dispatched effect (R97). -/
def dispatchWith (imm : Nibble) (effect : State → StepResult) (s : State) : StepResult :=
  if 0x0F < imm.toNat then raiseOutcome (.immediateOverflow imm) s
  else effect (latchUpdate s)

/-- The effect of a move, an input or a direct output: copy a source, advance (R120 to R123, R130,
R131, R133). -/
def transfer (dst : Dest) (src : Source) (s : State) : StepResult :=
  advance (writeDest dst (readSource src s) s)

/-- The effect of an adding instruction: source plus operand, with the carry, advance (R110, R111,
R132). The old source value is the one added (R99). -/
def addTransfer (dst : Dest) (src : Source) (imm : Nibble) (s : State) : StepResult :=
  let r := add4 (readSource src s) imm
  advance (writeCarry r.carry (writeDest dst r.sum s))

/-- Part 1, the fetch: `byte := prog[pc]` (R91). -/
def fetchByte (s : State) : Except Fault Byte :=
  Memory.read s.prog s.pc.toNat

end Sys2Proof.Machine
end

