-- ==== Sys2Proof/Machine/Add.lean ====
section
/-! DEFINITION. The add instructions (spec/41_add.md). -/

namespace Sys2Proof.Machine

/-- `add a, imm` (R110). -/
def execAddA (imm : Nibble) (s : State) : StepResult :=
  dispatchWith imm (addTransfer .regA .regA imm) s

/-- `add b, imm` (R111). -/
def execAddB (imm : Nibble) (s : State) : StepResult :=
  dispatchWith imm (addTransfer .regB .regB imm) s

/-- `nop`, the byte 0x00: executed as `add a, 0`, so it writes `C` (R112). -/
def execNop (s : State) : StepResult :=
  dispatchWith 0 (addTransfer .regA .regA 0) s

end Sys2Proof.Machine
end

