-- ==== Sys2Proof/Machine/Illegal.lean ====
section
/-! DEFINITION. The four illegal opcodes (spec/30_encoding.md R75, spec/60_exceptions.md R173): the
latch update, then `InvalidOpcode(opcode)`, and nothing else changed. -/

namespace Sys2Proof.Machine

/-- Opcode 1000. -/
def execIllegal1000 (imm : Nibble) (s : State) : StepResult :=
  dispatchWith imm (raiseOutcome (.invalidOpcode 0b1000)) s

/-- Opcode 1010. -/
def execIllegal1010 (imm : Nibble) (s : State) : StepResult :=
  dispatchWith imm (raiseOutcome (.invalidOpcode 0b1010)) s

/-- Opcode 1100. -/
def execIllegal1100 (imm : Nibble) (s : State) : StepResult :=
  dispatchWith imm (raiseOutcome (.invalidOpcode 0b1100)) s

/-- Opcode 1101. -/
def execIllegal1101 (imm : Nibble) (s : State) : StepResult :=
  dispatchWith imm (raiseOutcome (.invalidOpcode 0b1101)) s

end Sys2Proof.Machine
end

