-- ==== Sys2Proof/Machine/Jump.lean ====
section
/-! DEFINITION. The jump instructions and the halt idiom (spec/44_jump.md). -/

namespace Sys2Proof.Machine

/-- `jnc imm` (R140): tests `C` as the latch update of the same step left it. A jump to its own
address is an ordinary jump (R145). -/
def execJnc (imm : Nibble) (s : State) : StepResult :=
  dispatchWith imm (fun t => if t.c then advance t else jumpTo imm t) s

/-- `jmp imm`: `Halted` before any change when the target is the current `pc` (part 3, R93, R142),
otherwise the jump (R141). -/
def execJmp (imm : Nibble) (s : State) : StepResult :=
  if imm = s.pc then raiseOutcome .halted s
  else dispatchWith imm (jumpTo imm) s

end Sys2Proof.Machine
end

