-- ==== Sys2Proof/Machine/Move.lean ====
section
/-! DEFINITION. The move instructions (spec/42_mov.md). None writes the carry flag itself. -/

namespace Sys2Proof.Machine

/-- `mov a, b` (R120); the operand is not used. -/
def execMovAB (imm : Nibble) (s : State) : StepResult :=
  dispatchWith imm (transfer .regA .regB) s

/-- `mov a, imm` (R121). -/
def execMovAImm (imm : Nibble) (s : State) : StepResult :=
  dispatchWith imm (transfer .regA (.imm imm)) s

/-- `mov b, a` (R122); the operand is not used. -/
def execMovBA (imm : Nibble) (s : State) : StepResult :=
  dispatchWith imm (transfer .regB .regA) s

/-- `mov b, imm` (R123). -/
def execMovBImm (imm : Nibble) (s : State) : StepResult :=
  dispatchWith imm (transfer .regB (.imm imm)) s

end Sys2Proof.Machine
end

