-- ==== Sys2Proof/Machine/Port.lean ====
section
/-! DEFINITION. The port instructions (spec/43_io.md). -/

namespace Sys2Proof.Machine

/-- `in a` (R130, R134); the operand is not used. -/
def execInA (imm : Nibble) (s : State) : StepResult :=
  dispatchWith imm (transfer .regA .portIn) s

/-- `in b` (R131, R134); the operand is not used. -/
def execInB (imm : Nibble) (s : State) : StepResult :=
  dispatchWith imm (transfer .regB .portIn) s

/-- `out b`: outputs `B + imm` and writes the carry; `B` is kept (R132). -/
def execOutB (imm : Nibble) (s : State) : StepResult :=
  dispatchWith imm (addTransfer .portOut .regB imm) s

/-- `out imm` (R133). -/
def execOutImm (imm : Nibble) (s : State) : StepResult :=
  dispatchWith imm (transfer .portOut (.imm imm)) s

end Sys2Proof.Machine
end

