-- ==== Sys2Proof/Machine/Dispatch.lean ====
section
/-! DEFINITION. Dispatch (spec/40_step_cycle.md R97): one arm per constructor, each one call of its
meaning. -/

namespace Sys2Proof.Machine

def exec (i : Instr) (s : State) : Host.Outcome State Fault Refusal :=
  match i with
  | .addA imm => Sys2Proof.Machine.execAddA imm s
  | .movAB imm => Sys2Proof.Machine.execMovAB imm s
  | .inA imm => Sys2Proof.Machine.execInA imm s
  | .movAImm imm => Sys2Proof.Machine.execMovAImm imm s
  | .movBA imm => Sys2Proof.Machine.execMovBA imm s
  | .addB imm => Sys2Proof.Machine.execAddB imm s
  | .inB imm => Sys2Proof.Machine.execInB imm s
  | .movBImm imm => Sys2Proof.Machine.execMovBImm imm s
  | .outB imm => Sys2Proof.Machine.execOutB imm s
  | .outImm imm => Sys2Proof.Machine.execOutImm imm s
  | .jnc imm => Sys2Proof.Machine.execJnc imm s
  | .jmp imm => Sys2Proof.Machine.execJmp imm s
  | .nop => Sys2Proof.Machine.execNop s
  | .illegal1000 imm => Sys2Proof.Machine.execIllegal1000 imm s
  | .illegal1010 imm => Sys2Proof.Machine.execIllegal1010 imm s
  | .illegal1100 imm => Sys2Proof.Machine.execIllegal1100 imm s
  | .illegal1101 imm => Sys2Proof.Machine.execIllegal1101 imm s

end Sys2Proof.Machine
end

