-- ==== Sys2Proof/Machine/Step.lean ====
section
/-! DEFINITION. One step (spec/40_step_cycle.md R90): fetch (R91), decode (R92), then the instruction's
meaning, which performs parts 3 to 7. -/

namespace Sys2Proof.Machine

/-- One fetch-decode-execute cycle. -/
def step (s : State) : Host.Outcome State Fault Refusal :=
  match fetchByte s with
  | .ok byte => exec (decodeByte byte) s
  | .error f => .fault f

/-- `s` with the instruction whose bits are `w` stored at `pc`, where the next step fetches. Every
instruction is one byte, so the first byte of `w` is all there is (R70). -/
def State.withFetchWord (s : State) (_nbits w : Nat) : State :=
  { s with prog := Memory.poke s.prog s.pc.toNat (BitVec.ofNat 8 w) }

end Sys2Proof.Machine
end

