-- ==== Sys2Proof/Machine/Disassembler.lean ====
section
/-! DEFINITION. The Disassembler (spec/45_disassembler.md): a pure, total function from one byte to its
text, with no state and no connection to the Engine (R150). -/

namespace Sys2Proof.Machine

/-- When a stem's operand is shown (R153): class S ends in a separator, class J is one of the opcodes
1011, 1110, 1111, class P is plain. -/
inductive StemClass where
  | separator
  | jumpOrOut
  | plain
  deriving DecidableEq, Repr

/-- A mnemonic pattern with its operand removed (R153). -/
structure Stem where
  text : String
  shown : StemClass
  deriving DecidableEq, Repr

/-- The stem table, illegal opcodes included, by the opcode's bits, bit 3 first (R153, R156). -/
def stemOf (opcode : Nibble) : Stem :=
  match opcode[3], opcode[2], opcode[1], opcode[0] with
  | false, false, false, false => { text := "add a, ", shown := .separator }
  | false, false, false, true => { text := "mov a, b", shown := .plain }
  | false, false, true, false => { text := "in a", shown := .plain }
  | false, false, true, true => { text := "mov a, ", shown := .separator }
  | false, true, false, false => { text := "mov b, a", shown := .plain }
  | false, true, false, true => { text := "add b, ", shown := .separator }
  | false, true, true, false => { text := "in b", shown := .plain }
  | false, true, true, true => { text := "mov b, ", shown := .separator }
  | true, false, false, false => { text := "nop", shown := .plain }
  | true, false, false, true => { text := "out b", shown := .plain }
  | true, false, true, false => { text := "nop", shown := .plain }
  | true, false, true, true => { text := "out ", shown := .jumpOrOut }
  | true, true, false, false => { text := "nop", shown := .plain }
  | true, true, false, true => { text := "nop", shown := .plain }
  | true, true, true, false => { text := "jnc ", shown := .jumpOrOut }
  | true, true, true, true => { text := "jmp ", shown := .jumpOrOut }

/-- The shortest decimal numeral of an operand (R152; D6). -/
def decimalOf (imm : Nibble) : String := toString imm.toNat

/-- A stem with its operand rendered (R154). -/
def renderStem (stem : Stem) (imm : Nibble) : String :=
  match stem.shown with
  | .separator => stem.text ++ decimalOf imm
  | .jumpOrOut => stem.text ++ decimalOf imm
  | .plain => if imm = 0 then stem.text else stem.text ++ "+" ++ decimalOf imm

/-- The Disassembler under either value of the parameter `disasm_opcode0_all_nop` (D7). The byte zero
is tested first (R151). -/
def disassembleWith (opcode0AllNop : Bool) (byte : Byte) : String :=
  if byte = 0x00 then "nop"
  else if opcode0AllNop && opcodeField byte == 0 then "nop"
  else renderStem (stemOf (opcodeField byte)) (immField byte)

/-- `disassemble(byte)` (R154), with the parameter at its default (R155). -/
def disassemble (byte : Byte) : String := disassembleWith Config.disasmOpcode0AllNop byte

end Sys2Proof.Machine
end

