-- ==== Sys2Proof/Machine/HostSurface.lean ====
section
/-! DEFINITION. What the host does to the machine between steps, one operation each: reset
(spec/70_reset_and_hazards.md R200), the write and read surfaces (spec/10_state.md R37, R38), program
edits (spec/20_memory.md R63) and the loader (spec/60_exceptions.md R174, R203). None of them is an
instruction, and none changes the outcome the last step returned, but reset. -/

namespace Sys2Proof.Machine

/-- `reset`: every register, port and flag to its reset value, the program store untouched (R200). -/
def resetMachine (s : State) : State := { State.reset with prog := s.prog }

/-- The host writes the input port cell (R30, R38). -/
def hostWriteIn (v : Nibble) (s : State) : State := { s with inPort := v }

/-- Debug write of `A` (R38, R187). -/
def debugWriteA (v : Nibble) (s : State) : State := { s with a := v }

/-- Debug write of `B` (R38, R187). -/
def debugWriteB (v : Nibble) (s : State) : State := { s with b := v }

/-- Debug write of `OUT` (R38, R187). -/
def debugWriteOut (v : Nibble) (s : State) : State := { s with outPort := v }

/-- Debug write of `C`; the drop latch is unchanged (R38; D16). -/
def debugWriteC (v : Bool) (s : State) : State := { s with c := v }

/-- Debug write of `pc` (R38, R187). -/
def debugWritePc (v : Nibble) (s : State) : State := { s with pc := v }

/-- The host edits one byte of the program store, at a 4-bit address (R34, R63). -/
def editProgram (addr : Nibble) (byte : Byte) (s : State) : State :=
  { s with prog := Memory.poke s.prog addr.toNat byte }

/-- Why an image is not loaded (R174). -/
inductive LoadError where
  /-- The image has more than 16 bytes; nothing is loaded (D9; spec/90_conflicts.md C6). -/
  | romOverflow
  deriving DecidableEq, Repr

/-- The store a program image gives: shorter images are padded with 0x00, longer ones refused (R203;
D9). -/
def loadImage (image : List Byte) : Except LoadError Memory :=
  if image.length ≤ Config.storeSize then .ok (Memory.ofBytes 0 image) else .error .romOverflow

/-- Replace the whole program store by an image; nothing else changes (R51, R174). -/
def installImage (image : List Byte) (s : State) : Except LoadError State :=
  match loadImage image with
  | .ok m => .ok { s with prog := m }
  | .error e => .error e

/-- A newly constructed Engine with its program: the reset state (R201, R203; D21). -/
def construct (image : List Byte) : Except LoadError State :=
  installImage image State.reset

/-- What the host can read between steps: everything but the drop latch (R35, R37). -/
structure HostView where
  a : Nibble
  b : Nibble
  inPort : Nibble
  outPort : Nibble
  c : Bool
  pc : Nibble
  prog : List Byte
  deriving DecidableEq, Repr

/-- The host's read surface (R37). Reading has no side effect. -/
def hostView (s : State) : HostView :=
  { a := s.a, b := s.b, inPort := s.inPort, outPort := s.outPort, c := s.c, pc := s.pc,
    prog := Memory.dump s.prog }

end Sys2Proof.Machine
end

