-- ==== Sys2Proof/Machine/Run.lean ====
section
/-! DEFINITION. The control surface (spec/60_exceptions.md R182 to R186): `run` as iterated `step`, and
the host's console, which says what the host may do when. `run` adds no machine state (R183): what it
needs is kept in `Console`, not in `State`. -/

namespace Sys2Proof.Machine

/-- `n` calls of `step` (R182), each from the state the one before it left. -/
def stepN (n : Nat) (s : State) : StepResult :=
  match n with
  | 0 => .next s
  | k + 1 =>
    match step s with
    | .next t => stepN k t
    | .fault f => .fault f
    | .refused r => .refused r

/-- How a run ended (R183 to R185). -/
inductive RunEnd where
  /-- A step returned an outcome other than `Ok`, which is delivered to the host. -/
  | delivered (o : StepOutcome)
  /-- The run was stopped at a wait boundary; nothing is delivered (R184). -/
  | stopped
  deriving DecidableEq, Repr

/-- A run that the host lets perform at most `n` steps (R183): it ends at the first outcome other than
`Ok`, or is stopped after `n` steps. A stopped run has performed some whole number of steps, 0
included (R184; D22), so a claim about stopped runs holds for every `n`. -/
def runFor (n : Nat) (s : State) : Host.Outcome (State × RunEnd) Fault Refusal :=
  match n with
  | 0 => .next (s, .stopped)
  | k + 1 =>
    match step s with
    | .next t =>
      match t.outcome with
      | none => runFor k t
      | some .ok => runFor k t
      | some .halted => .next (t, .delivered .halted)
      | some (.immediateOverflow v) => .next (t, .delivered (.immediateOverflow v))
      | some (.invalidOpcode op) => .next (t, .delivered (.invalidOpcode op))
    | .fault f => .fault f
    | .refused r => .refused r

/-- Whether a `run` is active. Between two actions an active run is at its wait boundary (R183). -/
inductive RunPhase where
  | idle
  | active (stopRequested : Bool)
  deriving DecidableEq, Repr

/-- The machine with its host's bookkeeping: the run in progress, and the terminal outcome the last
run delivered, if any (R185). -/
structure Console where
  engine : State
  phase : RunPhase
  delivered : Option StepOutcome
  deriving DecidableEq, Repr

/-- The console right after reset, with no run started. -/
def Console.reset : Console := { engine := State.reset, phase := .idle, delivered := none }

/-- The atomic actions, totally ordered (R186). `runStep` and `runExit` are the run's own: its next
step, and its exit at the wait boundary after a stop request. -/
inductive Action where
  | reset
  | step
  | startRun
  | runStep
  | stop
  | runExit
  | writeIn (v : Nibble)
  | debugA (v : Nibble)
  | debugB (v : Nibble)
  | debugOut (v : Nibble)
  | debugC (v : Bool)
  | debugPc (v : Nibble)
  | edit (addr : Nibble) (byte : Byte)
  | install (image : List Byte)
  deriving DecidableEq, Repr

/-- What an action does. `stuck`: the model has no such transition (spec/93_implementation_defined.md
U1, U2). `rejected`: nothing changes and the host is told why (U3). -/
inductive ActionResult where
  | done (k : Console)
  | rejected (e : LoadError)
  | stuck
  deriving DecidableEq, Repr

/-- An action on the engine alone, allowed at any time between steps (R186). -/
def onEngine (f : State → State) (k : Console) : ActionResult :=
  .done { k with engine := f k.engine }

/-- The host's `step`: only when no run is active (U2). Its outcome is in the engine's state. -/
def consoleStep (k : Console) : ActionResult :=
  match k.phase with
  | .active _ => .stuck
  | .idle =>
    match step k.engine with
    | .next t => .done { k with engine := t }
    | .fault _ => .stuck
    | .refused _ => .stuck

/-- `run` starts: only when no run is active (U2). -/
def consoleStartRun (k : Console) : ActionResult :=
  match k.phase with
  | .active _ => .stuck
  | .idle => .done { k with phase := .active false, delivered := none }

/-- The active run's next step (R183): an outcome other than `Ok` ends the run and is delivered. -/
def consoleRunStep (k : Console) : ActionResult :=
  match k.phase with
  | .idle => .stuck
  | .active _ =>
    match step k.engine with
    | .next t =>
      match t.outcome with
      | none => .done { k with engine := t }
      | some .ok => .done { k with engine := t }
      | some .halted => .done { engine := t, phase := .idle, delivered := some .halted }
      | some (.immediateOverflow v) =>
        .done { engine := t, phase := .idle, delivered := some (.immediateOverflow v) }
      | some (.invalidOpcode op) =>
        .done { engine := t, phase := .idle, delivered := some (.invalidOpcode op) }
    | .fault _ => .stuck
    | .refused _ => .stuck

/-- `stop` asks an active run to end; idempotent, and nothing when no run is active (R184). -/
def consoleStop (k : Console) : ActionResult :=
  match k.phase with
  | .idle => .done k
  | .active _ => .done { k with phase := .active true }

/-- An active run whose stop was requested ends at the wait boundary and delivers nothing (R183,
R184). -/
def consoleRunExit (k : Console) : ActionResult :=
  match k.phase with
  | .active true => .done { k with phase := .idle }
  | .active false => .stuck
  | .idle => .stuck

/-- A program edit: only when no run is active (R63; U1). -/
def consoleEdit (addr : Nibble) (byte : Byte) (k : Console) : ActionResult :=
  match k.phase with
  | .active _ => .stuck
  | .idle => onEngine (editProgram addr byte) k

/-- Loading an image: only when no run is active (R63; U1), refused when too long (U3). -/
def consoleInstall (image : List Byte) (k : Console) : ActionResult :=
  match k.phase with
  | .active _ => .stuck
  | .idle =>
    match installImage image k.engine with
    | .ok t => .done { k with engine := t }
    | .error e => .rejected e

/-- One host action. Reset leaves an active run active (R40: `run` holds `step_en` while `rst` acts;
log entry 14), and port and debug writes may fall at the wait boundary of a run (R59; log entry 15). -/
def act (action : Action) (k : Console) : ActionResult :=
  match action with
  | .reset => onEngine resetMachine k
  | .step => consoleStep k
  | .startRun => consoleStartRun k
  | .runStep => consoleRunStep k
  | .stop => consoleStop k
  | .runExit => consoleRunExit k
  | .writeIn v => onEngine (hostWriteIn v) k
  | .debugA v => onEngine (debugWriteA v) k
  | .debugB v => onEngine (debugWriteB v) k
  | .debugOut v => onEngine (debugWriteOut v) k
  | .debugC v => onEngine (debugWriteC v) k
  | .debugPc v => onEngine (debugWritePc v) k
  | .edit addr byte => consoleEdit addr byte k
  | .install image => consoleInstall image k

end Sys2Proof.Machine
end

