-- ==== Sys2Proof/Machine/Signals.lean ====
section
/-! DEFINITION. The signal-level view of spec/10_state.md R40 (D1 to D3): the machine as a module with
pins, whose input and output signals are those of the rule's table and which changes at clock edges
only. The view adds no behaviour: an edge performs `reset`, one step, or neither. -/

namespace Sys2Proof.Machine

/-- The input signals of R40 at one rising edge of `clk`. `hostWrites` is the model's own (DESIGN
CHOICE, log entry 23): R40 gives `in_port` as the value a host write loads and names no signal that says
when the host writes. -/
structure InputSignals where
  rst : Bool
  stepEn : Bool
  romData : Byte
  inPort : Nibble
  /-- A host write of `IN` falls at this edge. -/
  hostWrites : Bool
  deriving DecidableEq, Repr

/-- The module: the machine, and what its outcome signal needs. `stepped` and `edges` are the model's
own, no machine state (R40: the outcome signal is not registered as machine state; log entry 22). -/
structure SignalModule where
  engine : State
  /-- The last edge performed a step. -/
  stepped : Bool
  /-- How many edges there were: it only picks the next free value. -/
  edges : Nat
  deriving DecidableEq, Repr

/-- The module right after reset, before its first edge. -/
def SignalModule.reset : SignalModule := { engine := State.reset, stepped := false, edges := 0 }

/-- The byte the store drives on `rom_data`, combinationally: `prog[rom_addr]` (R40). -/
def romDataOf (store : Memory) (romAddr : Nibble) : Byte := Memory.peek store romAddr.toNat

/-- The `IN` cell at an edge: loaded from `in_port` by a host write, which comes before the step of the
same edge (spec/20_memory.md R59; log entry 23). -/
def loadInPort (inp : InputSignals) (s : State) : State :=
  if inp.hostWrites then hostWriteIn inp.inPort s else s

/-- The machine after an edge's step, with the answer of the step kept. -/
def afterStepEdge (edges : Nat) (r : StepResult) : Host.Outcome SignalModule Fault Refusal :=
  match r with
  | .next t => .next { engine := t, stepped := true, edges := edges + 1 }
  | .fault f => .fault f
  | .refused x => .refused x

/-- One rising edge of `clk` (R40): `rst` performs `reset` and wins over `step_en`; `step_en` performs one
step, whose instruction byte is what stands on `rom_data`; with neither, only a host write acts. -/
def clockEdge (inp : InputSignals) (m : SignalModule) : Host.Outcome SignalModule Fault Refusal :=
  if inp.rst then
    .next { engine := resetMachine (loadInPort inp m.engine), stepped := false, edges := m.edges + 1 }
  else if inp.stepEn then
    afterStepEdge m.edges (exec (decodeByte inp.romData) (loadInPort inp m.engine))
  else
    .next { engine := loadInPort inp m.engine, stepped := false, edges := m.edges + 1 }

/-- The value of the outcome signal for an outcome of a step (R40): its name without its payload. -/
def signalOfOutcome (o : StepOutcome) : OutcomeSignal :=
  match o with
  | .ok => .ok
  | .halted => .halted
  | .immediateOverflow _ => .immediateOverflow
  | .invalidOpcode _ => .invalidOpcode

/-- The outcome signal (R40): the outcome of the step performed at the last edge. Where the last edge
performed no step, or there was none, the spec says nothing and the signal is FREE (DESIGN CHOICE, log
entry 22): no older outcome is shown on. -/
def outcomeSignal (m : SignalModule) : OutcomeSignal :=
  match m.stepped, m.engine.outcome with
  | true, some o => signalOfOutcome o
  | true, none => Config.outcomeWithoutStep m.edges
  | false, some _ => Config.outcomeWithoutStep m.edges
  | false, none => Config.outcomeWithoutStep m.edges

/-- The output signals (R40). -/
structure OutputSignals where
  romAddr : Nibble
  outPort : Nibble
  carry : Bool
  aDbg : Nibble
  bDbg : Nibble
  outcome : OutcomeSignal
  deriving DecidableEq, Repr

/-- What the module drives (R40). -/
def outputSignals (m : SignalModule) : OutputSignals :=
  { romAddr := m.engine.pc, outPort := m.engine.outPort, carry := m.engine.c, aDbg := m.engine.a,
    bDbg := m.engine.b, outcome := outcomeSignal m }

/-- How a `run` drives `step_en` (R40): it holds it at 1 until an outcome other than `Ok` ends it or
`stop` is asked for. Whether it steps on after that request is the environment's choice `goesOn` (D22,
log entry 12). -/
def runStepEn (phase : RunPhase) (goesOn : Bool) : Bool :=
  match phase with
  | .idle => false
  | .active false => true
  | .active true => goesOn

end Sys2Proof.Machine
end

