-- ==== Sys2Proof/Safety.lean ====
section
/-! DEFINITION. The terms claims use: the byte about to be fetched, the outcome the fetched byte
calls for, and the invariants of the machine. -/

namespace Sys2Proof.Machine

/-- The byte the next step fetches: `prog[pc]` (spec/40_step_cycle.md R91). -/
def currentByte (s : State) : Byte := Memory.peek s.prog s.pc.toNat

/-- Opcode values without an instruction (spec/30_encoding.md R75). -/
def isIllegalOpcode (opcode : Nibble) : Bool :=
  opcode == 0b1000 || opcode == 0b1010 || opcode == 0b1100 || opcode == 0b1101

/-- The next step fetches the halt idiom: `jmp` to its own address (R78, spec/44_jump.md R142). -/
def AtHalt (s : State) : Prop := currentByte s = joinFields 0b1111 s.pc

/-- The next step fetches a byte with the illegal opcode `op` (R75). -/
def AtIllegal (op : Nibble) (s : State) : Prop :=
  opcodeField (currentByte s) = op ∧ isIllegalOpcode op = true

/-- The machine stands at `jnc` to its own address with the carry flag clear (spec/44_jump.md R145). -/
def InJncSelfLoop (s : State) : Prop :=
  currentByte s = joinFields 0b1110 s.pc ∧ s.c = false

/-- The recorded outcome tells the truth about the byte `pc` still addresses
(spec/60_exceptions.md R171 to R173, R177): `Halted` only at the halt idiom, `InvalidOpcode(op)` only
at a byte with that illegal opcode, `ImmediateOverflow` never. -/
def OutcomeTruthful (s : State) : Prop :=
  (s.outcome = some .halted → AtHalt s) ∧
  (∀ op, s.outcome = some (.invalidOpcode op) → AtIllegal op s) ∧
  (∀ v, s.outcome ≠ some (.immediateOverflow v))

/-- The invariant of the machine: the program store is in its canonical form, and the recorded outcome
is truthful. -/
def Inv (s : State) : Prop := Memory.wf s.prog = true ∧ OutcomeTruthful s

/-- Each of the first `k` steps from `s` returned `Ok` (spec/60_exceptions.md R183, R185). -/
def AllStepsOk (k : Nat) (s : State) : Prop :=
  ∀ j : Nat, j < k → ∃ t : State, stepN (j + 1) s = .next t ∧ t.outcome = some .ok

/-- The value of the drop latch after the latch update (spec/40_step_cycle.md R95): cleared from
`(1, 1)`, armed from `(1, 0)`, kept when `C = 0`. -/
def agedLatch (s : State) : Bool := if s.c then !s.d else s.d

/-- The value of the carry flag after the latch update (R95): it survives only from `(1, 0)`. -/
def agedFlag (s : State) : Bool := s.c && !s.d

/-- The two numbers an adding instruction adds, `none` for an instruction that does not add: exactly
`add a` (with `nop`), `add b` and `out b` add (spec/10_state.md R26). -/
def addendsOf (i : Instr) (s : State) : Option (Nibble × Nibble) :=
  match i with
  | .addA imm => some (s.a, imm)
  | .nop => some (s.a, 0)
  | .addB imm => some (s.b, imm)
  | .outB imm => some (s.b, imm)
  | .movAB _ => none
  | .inA _ => none
  | .movAImm _ => none
  | .movBA _ => none
  | .inB _ => none
  | .movBImm _ => none
  | .outImm _ => none
  | .jnc _ => none
  | .jmp _ => none
  | .illegal1000 _ => none
  | .illegal1010 _ => none
  | .illegal1100 _ => none
  | .illegal1101 _ => none

/-- What the next step's dispatch writes to `C`: the carry out of its sum, or `none` if the fetched
instruction does not add (the `w` of spec/10_state.md R28). -/
def carryWritten (s : State) : Option Bool :=
  match addendsOf (decodeByte (currentByte s)) s with
  | some (x, y) => some (decide (15 < x.toNat + y.toNat))
  | none => none

/-- The instructions that write `A` (spec/10_state.md R20). -/
def writesA (i : Instr) : Bool :=
  match i with
  | .addA _ | .nop | .movAB _ | .inA _ | .movAImm _ => true
  | .addB _ | .inB _ | .movBA _ | .movBImm _ | .outB _ | .outImm _ | .jnc _ | .jmp _
  | .illegal1000 _ | .illegal1010 _ | .illegal1100 _ | .illegal1101 _ => false

/-- The instructions that write `B` (spec/10_state.md R20). -/
def writesB (i : Instr) : Bool :=
  match i with
  | .addB _ | .inB _ | .movBA _ | .movBImm _ => true
  | .addA _ | .nop | .movAB _ | .inA _ | .movAImm _ | .outB _ | .outImm _ | .jnc _ | .jmp _
  | .illegal1000 _ | .illegal1010 _ | .illegal1100 _ | .illegal1101 _ => false

/-- The instructions that write `OUT` (spec/10_state.md R20). -/
def writesOut (i : Instr) : Bool :=
  match i with
  | .outB _ | .outImm _ => true
  | .addA _ | .nop | .movAB _ | .inA _ | .movAImm _ | .addB _ | .inB _ | .movBA _ | .movBImm _
  | .jnc _ | .jmp _ | .illegal1000 _ | .illegal1010 _ | .illegal1100 _ | .illegal1101 _ => false

end Sys2Proof.Machine
end

