-- ==== Sys2Proof/Certificates/Slice0/Obligations.lean ====
section
/-! DEFINITION. The statements for the provers. In each instruction statement the machine answers the
state written out, so whatever that state takes over from `s` is the frame: it is unchanged. The field
`outcome` is the model's own (log entry 1): it holds what the step returned. -/

open Sys2Proof Sys2Proof.Machine

/-! ### Encoding -/

/-- Decoding the bytes of a well-formed instruction, whatever follows them, gives the instruction back
and leaves what follows (spec/30_encoding.md R70 to R76). That the well-formed terms hold `nop` for the
byte 0x00, and not `addA 0`, is the model's choice (log entry 2). -/
def Obligations.DecodeUndoesEncode : Prop :=
  ∀ (i : Instr) (rest : List Byte), WellFormed i = true → decode (encode i ++ rest) = .ok (i, rest)

/-- Decoding is total and every byte is the encoding of exactly one well-formed instruction
(spec/30_encoding.md R71, R73). That 0x00 is the term `nop` and not `addA 0` is the model's choice
(log entry 2). -/
def Obligations.EveryByteEncodesOneInstruction : Prop :=
  ∀ b : Byte, WellFormed (decodeByte b) = true ∧ encode (decodeByte b) = [b] ∧
    ∀ i : Instr, WellFormed i = true → encode i = [b] → i = decodeByte b

/-- The opcode map (spec/30_encoding.md R74, R75): each opcode with each operand decodes to its
instruction. Rule R74 gives the byte 0x00 to `add a, 0` and R77 knows no no-operation opcode: that 0x00
decodes to the term `nop`, and opcode 0000 to `addA imm` only for `imm` other than 0, is the model's
choice, not the spec's (DESIGN CHOICE, log entry 2). -/
def Obligations.OpcodeMapDecodes : Prop :=
  decodeByte 0x00 = .nop ∧
  ∀ imm : Nibble,
    (imm ≠ 0 → decodeByte (joinFields 0b0000 imm) = .addA imm) ∧
    decodeByte (joinFields 0b0001 imm) = .movAB imm ∧
    decodeByte (joinFields 0b0010 imm) = .inA imm ∧
    decodeByte (joinFields 0b0011 imm) = .movAImm imm ∧
    decodeByte (joinFields 0b0100 imm) = .movBA imm ∧
    decodeByte (joinFields 0b0101 imm) = .addB imm ∧
    decodeByte (joinFields 0b0110 imm) = .inB imm ∧
    decodeByte (joinFields 0b0111 imm) = .movBImm imm ∧
    decodeByte (joinFields 0b1000 imm) = .illegal1000 imm ∧
    decodeByte (joinFields 0b1001 imm) = .outB imm ∧
    decodeByte (joinFields 0b1010 imm) = .illegal1010 imm ∧
    decodeByte (joinFields 0b1011 imm) = .outImm imm ∧
    decodeByte (joinFields 0b1100 imm) = .illegal1100 imm ∧
    decodeByte (joinFields 0b1101 imm) = .illegal1101 imm ∧
    decodeByte (joinFields 0b1110 imm) = .jnc imm ∧
    decodeByte (joinFields 0b1111 imm) = .jmp imm

/-- A few words written out bit by bit from spec/30_encoding.md R71, R74, R75, one of each family. Rule
R74 gives the word 0b00000000 to `add a, 0`: that it decodes to the term `nop` is the model's choice, not
the spec's (DESIGN CHOICE, log entry 2). -/
def Obligations.SampleWordsDecode : Prop :=
  decodeTableWord 8 0b00001000 = some (.addA 8) ∧
  decodeTableWord 8 0b00111101 = some (.movAImm 13) ∧
  decodeTableWord 8 0b10011000 = some (.outB 8) ∧
  decodeTableWord 8 0b11100001 = some (.jnc 1) ∧
  decodeTableWord 8 0b00000000 = some .nop ∧
  decodeTableWord 8 0b11011111 = some (.illegal1101 15)

/-! ### The step -/

/-- A step fetches `prog[pc]`, which cannot fail, decodes it and runs the decoded instruction on the
state as it is (spec/40_step_cycle.md R90 to R92, R97). Nothing is done around the meaning. Which term
the byte 0x00 decodes to is the model's choice (log entry 2). -/
def Obligations.StepRunsTheDecodedInstruction : Prop :=
  ∀ s : State, fetchByte s = .ok (currentByte s) ∧
    decode [currentByte s] = .ok (decodeByte (currentByte s), []) ∧
    WellFormed (decodeByte (currentByte s)) = true ∧
    step s = exec (decodeByte (currentByte s)) s

/-- The latch update of spec/40_step_cycle.md R95, in its three alternatives. -/
def Obligations.LatchUpdateAlternatives : Prop :=
  ∀ s : State,
    (s.c = true → s.d = true → latchUpdate s = { s with c := false, d := false }) ∧
    (s.c = true → s.d = false → latchUpdate s = { s with d := true }) ∧
    (s.c = false → latchUpdate s = s)

/-- The adder (spec/40_step_cycle.md R96). -/
def Obligations.AdderSumAndCarry : Prop :=
  ∀ x y : Nibble,
    (add4 x y).sum.toNat = (x.toNat + y.toNat) % 16 ∧
    ((add4 x y).carry = true ↔ 15 < x.toNat + y.toNat) ∧
    (add4 x y).sum.toNat + 16 * (add4 x y).carry.toNat = x.toNat + y.toNat

/-- Subtraction by adding the complement (spec/40_step_cycle.md R101): for `k` from 1 to 15, adding
`16 - k` gives `x - k` mod 16, with a carry exactly when there is no borrow; adding zero never
carries, and addition commutes. -/
def Obligations.AdderLaws : Prop :=
  ∀ x k : Nibble,
    add4 x k = add4 k x ∧
    add4 x 0 = { sum := x, carry := false } ∧
    ((add4 x k).carry = true ↔ 16 - x.toNat ≤ k.toNat) ∧
    (k ≠ 0 → (add4 x (0 - k)).sum = x - k ∧ ((add4 x (0 - k)).carry = true ↔ k.toNat ≤ x.toNat))

/-- Which outcome a step returns (derived in spec/40_step_cycle.md R103 from R90): `Halted` at the halt idiom,
`InvalidOpcode` at an illegal byte, `Ok` everywhere else; and an adding instruction leaves its carry
in `C`. -/
def Obligations.OutcomeCensus : Prop :=
  ∀ s : State, ∃ t : State, step s = .next t ∧
    (AtHalt s → t.outcome = some .halted) ∧
    (∀ op : Nibble, AtIllegal op s → t.outcome = some (.invalidOpcode op)) ∧
    (¬ AtHalt s → (∀ op : Nibble, ¬ AtIllegal op s) → t.outcome = some .ok) ∧
    (∀ w : Bool, carryWritten s = some w → t.c = w)

/-- `ImmediateOverflow` is unreachable (spec/40_step_cycle.md R94): no step returns it, from any state. -/
def Obligations.ImmediateOverflowUnreachable : Prop :=
  ∀ (s t : State) (v : Nibble), step s = .next t → t.outcome ≠ some (.immediateOverflow v)

/-- What each outcome leaves behind (spec/40_step_cycle.md R100): `Halted` leaves everything,
`InvalidOpcode` only ages the flag, and a step that returns `Ok` leaves `IN` and the store, ages the
latch, and leaves in `C` the aged flag or the carry the instruction wrote. That the latch is only aged
by an adding instruction too (`t.d = agedLatch s`) is decision D15 (DEDUCED, log entry 5): with
`add_disarms_latch` it would be false. -/
def Obligations.StateLeftByEachOutcome : Prop :=
  ∀ s t : State, step s = .next t →
    (t.outcome = some .halted → t = { s with outcome := some .halted }) ∧
    (∀ op : Nibble, t.outcome = some (.invalidOpcode op) →
      t = { s with c := agedFlag s, d := agedLatch s, outcome := some (.invalidOpcode op) }) ∧
    (t.outcome = some .ok →
      t.inPort = s.inPort ∧ (∀ addr : Nat, Memory.read t.prog addr = Memory.read s.prog addr) ∧
      t.d = agedLatch s ∧ t.c = (carryWritten s).getD (agedFlag s))

/-- Every instruction answers a next state and changes, of the registers, ports and memory, at most
the one destination that spec/10_state.md R20 gives it; no instruction writes `IN` (R23) or the
program store (spec/20_memory.md R53). -/
def Obligations.InstructionWritesOnlyItsDestination : Prop :=
  ∀ (i : Instr) (s : State), ∃ t : State, exec i s = .next t ∧
    (writesA i = false → t.a = s.a) ∧ (writesB i = false → t.b = s.b) ∧
    (writesOut i = false → t.outPort = s.outPort) ∧ t.inPort = s.inPort ∧
    ∀ addr : Nat, Memory.read t.prog addr = Memory.read s.prog addr

/-- How each step changes `pc` (spec/40_step_cycle.md R98, spec/10_state.md R25): the ten non-jump
instructions always advance it mod 16, as does a `jnc` that finds `C = 1` after the latch update; a
taken `jnc` and a `jmp` write their operand; a step that returns another outcome than `Ok` keeps it. -/
def Obligations.ProgramCounterRule : Prop :=
  ∀ s t : State, step s = .next t →
    (t.outcome ≠ some .ok → t.pc = s.pc) ∧
    (t.outcome = some .ok → opcodeField (currentByte s) = 0b1111 →
      t.pc = immField (currentByte s)) ∧
    (opcodeField (currentByte s) = 0b1110 → agedFlag s = false → t.pc = immField (currentByte s)) ∧
    (opcodeField (currentByte s) = 0b1110 → agedFlag s = true →
      t.pc.toNat = (s.pc.toNat + 1) % 16) ∧
    (isIllegalOpcode (opcodeField (currentByte s)) = false →
      opcodeField (currentByte s) ≠ 0b1111 → opcodeField (currentByte s) ≠ 0b1110 →
      t.outcome = some .ok ∧ t.pc.toNat = (s.pc.toNat + 1) % 16)

/-- The recorded outcome is output only: no step reads it. The field is the model's choice (log entry
1); that a step's behaviour does not depend on an earlier outcome is spec/60_exceptions.md R178. -/
def Obligations.RecordedOutcomeIsNeverRead : Prop :=
  ∀ (s : State) (o : Option StepOutcome), step { s with outcome := o } = step s

/-- No step ever stops the machine: any number of steps from any state gives a next state
(spec/40_step_cycle.md R90, R91). That `Halted` and `InvalidOpcode` are next states is the model's
choice (log entry 1). -/
def Obligations.EveryNumberOfStepsCompletes : Prop :=
  ∀ (n : Nat) (s : State), ∃ t : State, stepN n s = .next t

/-! ### The adding instructions -/

/-- `add a, imm` (spec/41_add.md R110), as a meaning and as a step that fetches its byte: `A` takes the
4-bit sum, `C` its carry out, `D` the aged latch, `pc` advances, and nothing else changes. That an add leaves `D` alone is
the spec's own decision D15 (log entry 5). -/
def Obligations.AddAResult : Prop :=
  ∀ (imm : Nibble) (s : State),
    let t : State :=
      { s with
        a := BitVec.ofNat 4 (s.a.toNat + imm.toNat)
        c := decide (15 < s.a.toNat + imm.toNat)
        d := agedLatch s
        pc := s.pc + 1
        outcome := some .ok }
    exec (.addA imm) s = .next t ∧ (currentByte s = joinFields 0b0000 imm → step s = .next t)

/-- `add b, imm` (spec/41_add.md R111): `B` takes the 4-bit sum, `C` its carry out, `D` the aged latch,
`pc` advances, and nothing else changes. That an add leaves `D` alone is
the spec's own decision D15 (log entry 5). -/
def Obligations.AddBResult : Prop :=
  ∀ (imm : Nibble) (s : State),
    let t : State :=
      { s with
        b := BitVec.ofNat 4 (s.b.toNat + imm.toNat)
        c := decide (15 < s.b.toNat + imm.toNat)
        d := agedLatch s
        pc := s.pc + 1
        outcome := some .ok }
    exec (.addB imm) s = .next t ∧ (currentByte s = joinFields 0b0101 imm → step s = .next t)

/-- `nop`, the byte 0x00, is `add a, 0` (spec/41_add.md R112): it clears `C`, keeps `A` and leaves the
aged latch; `add b, 0` and `out b` with operand 0 do the same to the carry pair. The spec derives this
from R95 and R110; that an add leaves `D` alone is its decision D15 (log entry 5), and that the byte
0x00 has a term of its own is the model's choice (log entry 2). -/
def Obligations.NopIsAddZero : Prop :=
  ∀ s : State,
    let t : State := { s with c := false, d := agedLatch s, pc := s.pc + 1, outcome := some .ok }
    exec .nop s = .next t ∧ exec (.addA 0) s = .next t ∧ (currentByte s = 0x00 → step s = .next t) ∧
    exec (.addB 0) s = .next t ∧ exec (.outB 0) s = .next { t with outPort := s.b }

/-- `out b` (spec/43_io.md R132): `OUT` takes the 4-bit sum of `B` and the operand, `C` its carry out,
`D` the aged latch, `pc` advances, and nothing else changes, `B` included. That an add
leaves `D` alone is the spec's own decision D15 (log entry 5). -/
def Obligations.OutBResult : Prop :=
  ∀ (imm : Nibble) (s : State),
    let t : State :=
      { s with
        outPort := BitVec.ofNat 4 (s.b.toNat + imm.toNat)
        c := decide (15 < s.b.toNat + imm.toNat)
        d := agedLatch s
        pc := s.pc + 1
        outcome := some .ok }
    exec (.outB imm) s = .next t ∧ (currentByte s = joinFields 0b1001 imm → step s = .next t)

/-! ### The moves and the ports -/

/-- `mov a, b` (spec/42_mov.md R120): `A` takes `B` whatever the operand, the carry pair is aged by the
latch update only, `pc` advances, and nothing else changes. -/
def Obligations.MovABResult : Prop :=
  ∀ (imm : Nibble) (s : State),
    let t : State :=
      { s with a := s.b, c := agedFlag s, d := agedLatch s, pc := s.pc + 1, outcome := some .ok }
    exec (.movAB imm) s = .next t ∧ (currentByte s = joinFields 0b0001 imm → step s = .next t)

/-- `mov a, imm` (spec/42_mov.md R121): `A` takes the operand, the carry pair is aged by the latch
update only, `pc` advances, and nothing else changes. -/
def Obligations.MovAImmResult : Prop :=
  ∀ (imm : Nibble) (s : State),
    let t : State :=
      { s with a := imm, c := agedFlag s, d := agedLatch s, pc := s.pc + 1, outcome := some .ok }
    exec (.movAImm imm) s = .next t ∧ (currentByte s = joinFields 0b0011 imm → step s = .next t)

/-- `mov b, a` (spec/42_mov.md R122): `B` takes `A` whatever the operand, the carry pair is aged by the
latch update only, `pc` advances, and nothing else changes. -/
def Obligations.MovBAResult : Prop :=
  ∀ (imm : Nibble) (s : State),
    let t : State :=
      { s with b := s.a, c := agedFlag s, d := agedLatch s, pc := s.pc + 1, outcome := some .ok }
    exec (.movBA imm) s = .next t ∧ (currentByte s = joinFields 0b0100 imm → step s = .next t)

/-- `mov b, imm` (spec/42_mov.md R123): `B` takes the operand, the carry pair is aged by the latch
update only, `pc` advances, and nothing else changes. -/
def Obligations.MovBImmResult : Prop :=
  ∀ (imm : Nibble) (s : State),
    let t : State :=
      { s with b := imm, c := agedFlag s, d := agedLatch s, pc := s.pc + 1, outcome := some .ok }
    exec (.movBImm imm) s = .next t ∧ (currentByte s = joinFields 0b0111 imm → step s = .next t)

/-- `in a` (spec/43_io.md R130): `A` takes `IN` whatever the operand, the carry pair is aged by the
latch update only, `pc` advances, and nothing else changes. -/
def Obligations.InAResult : Prop :=
  ∀ (imm : Nibble) (s : State),
    let t : State :=
      { s with a := s.inPort, c := agedFlag s, d := agedLatch s, pc := s.pc + 1, outcome := some .ok }
    exec (.inA imm) s = .next t ∧ (currentByte s = joinFields 0b0010 imm → step s = .next t)

/-- `in b` (spec/43_io.md R131): `B` takes `IN` whatever the operand, the carry pair is aged by the
latch update only, `pc` advances, and nothing else changes. -/
def Obligations.InBResult : Prop :=
  ∀ (imm : Nibble) (s : State),
    let t : State :=
      { s with b := s.inPort, c := agedFlag s, d := agedLatch s, pc := s.pc + 1, outcome := some .ok }
    exec (.inB imm) s = .next t ∧ (currentByte s = joinFields 0b0110 imm → step s = .next t)

/-- `out imm` (spec/43_io.md R133): `OUT` takes the operand, the carry pair is aged by the latch
update only, `pc` advances, and nothing else changes. -/
def Obligations.OutImmResult : Prop :=
  ∀ (imm : Nibble) (s : State),
    let t : State :=
      { s with outPort := imm, c := agedFlag s, d := agedLatch s, pc := s.pc + 1, outcome := some .ok }
    exec (.outImm imm) s = .next t ∧ (currentByte s = joinFields 0b1011 imm → step s = .next t)

/-! ### The jumps and the illegal opcodes -/

/-- `jnc imm` tests `C` after the latch update of the same step: taken when it is clear, else the next
address (spec/44_jump.md R140). It never halts. -/
def Obligations.JncResult : Prop :=
  ∀ (imm : Nibble) (s : State),
    let t : State :=
      { s with
        c := agedFlag s
        d := agedLatch s
        pc := if agedFlag s = false then imm else s.pc + 1
        outcome := some .ok }
    exec (.jnc imm) s = .next t ∧ (currentByte s = joinFields 0b1110 imm → step s = .next t)

/-- `jmp imm` (spec/44_jump.md R141): to another address it writes `pc` after the latch update and
changes nothing else; with its own address as target it returns `Halted` and changes nothing. -/
def Obligations.JmpResult : Prop :=
  ∀ s : State,
    (∀ imm : Nibble, imm ≠ s.pc →
      let t : State :=
        { s with c := agedFlag s, d := agedLatch s, pc := imm, outcome := some .ok }
      exec (.jmp imm) s = .next t ∧ (currentByte s = joinFields 0b1111 imm → step s = .next t)) ∧
    exec (.jmp s.pc) s = .next { s with outcome := some .halted }

/-- The four illegal opcodes, with any operand (spec/60_exceptions.md R173): the latch update, the
outcome `InvalidOpcode(opcode)`, and nothing else. -/
def Obligations.IllegalOpcodeResult : Prop :=
  ∀ (imm : Nibble) (s : State),
    let t (op : Nibble) : State :=
      { s with c := agedFlag s, d := agedLatch s, outcome := some (.invalidOpcode op) }
    exec (.illegal1000 imm) s = .next (t 8) ∧ exec (.illegal1010 imm) s = .next (t 10) ∧
    exec (.illegal1100 imm) s = .next (t 12) ∧ exec (.illegal1101 imm) s = .next (t 13) ∧
    ∀ op : Nibble, isIllegalOpcode op = true → currentByte s = joinFields op imm →
      step s = .next (t op)

/-- The halt idiom (spec/44_jump.md R142): nothing changes, the latch update included, and every
further step returns `Halted` again from the same state. -/
def Obligations.HaltIsAbsorbing : Prop :=
  ∀ s : State, AtHalt s →
    exec (.jmp s.pc) s = .next { s with outcome := some .halted } ∧
    (∀ t : State, step s = .next t → AtHalt t) ∧
    ∀ n : Nat, stepN (n + 1) s = .next { s with outcome := some .halted }

/-- Re-stepping an illegal opcode ages the flag (spec/70_reset_and_hazards.md R217): every attempt
performs the latch update and nothing else, and from `(1, 0)` two attempts reach `(0, 0)`, which then
stays. -/
def Obligations.ReSteppingAnIllegalOpcodeAgesTheFlag : Prop :=
  ∀ (op : Nibble) (s : State), AtIllegal op s →
    step s = .next { s with c := agedFlag s, d := agedLatch s, outcome := some (.invalidOpcode op) } ∧
    (s.c = true → s.d = false →
      step s = .next { s with d := true, outcome := some (.invalidOpcode op) } ∧
      ∀ n : Nat, stepN (n + 2) s =
        .next { s with c := false, d := false, outcome := some (.invalidOpcode op) })

/-- `jnc` to its own address is not a halt (derived in spec/44_jump.md R145 from R140): with the flag clear after the latch
update it is taken, and every later step does the same with outcome `Ok`; with the flag set it falls
through once. -/
def Obligations.JncSelfLoopNeverHalts : Prop :=
  ∀ s : State, currentByte s = joinFields 0b1110 s.pc →
    (agedFlag s = false → ∀ n : Nat, stepN (n + 1) s =
      .next { s with c := false, d := agedLatch s, outcome := some .ok }) ∧
    (agedFlag s = true →
      step s = .next { s with c := true, d := true, pc := s.pc + 1, outcome := some .ok })

/-- The loop of `jnc` to its own address with the carry clear, once entered, is never left
(spec/44_jump.md R145). -/
def Obligations.JncSelfLoopIsNeverLeft : Prop :=
  ∀ s t : State, InJncSelfLoop s → step s = .next t → InJncSelfLoop t ∧ t.outcome = some .ok

/-! ### The carry mechanism over several steps -/

/-- The table the spec derives in spec/10_state.md R28: how a step that reaches dispatch moves `(C, D)`,
by what the dispatch writes to `C`. That an add leaves `D` alone is decision D15 (log entry 5). -/
def Obligations.CarryPairTable : Prop :=
  ∀ s t : State, step s = .next t → t.outcome ≠ some .halted →
    (t.c, t.d) = match s.c, s.d, carryWritten s with
      | false, false, none => (false, false)
      | false, false, some false => (false, false)
      | false, false, some true => (true, false)
      | true, false, none => (true, true)
      | true, false, some false => (false, true)
      | true, false, some true => (true, true)
      | true, true, none => (false, false)
      | true, true, some false => (false, false)
      | true, true, some true => (true, false)
      | false, true, none => (false, true)
      | false, true, some false => (false, true)
      | false, true, some true => (true, true)

/-- A carry lives one step, under the conditions (a) to (c) of spec/10_state.md R29: the instruction
after the add reads it, the one after that does not; the host sees it after the next step unless that
step was an add without carry, and no longer after the second. It rests on decision D15 (log entry 5). -/
def Obligations.CarryVisibleForOneStep : Prop :=
  ∀ s₀ s₁ s₂ s₃ : State,
    step s₀ = .next s₁ → step s₁ = .next s₂ → step s₂ = .next s₃ →
    carryWritten s₀ = some true → agedLatch s₀ = false →
    carryWritten s₁ ≠ some true → carryWritten s₂ ≠ some true →
    s₂.outcome ≠ some .halted → s₃.outcome ≠ some .halted →
    s₁.c = true ∧ agedFlag s₁ = true ∧ (s₂.c = true ↔ carryWritten s₁ = none) ∧
    agedFlag s₂ = false ∧ s₃.c = false

/-- The stale latch (derived in spec/70_reset_and_hazards.md R213; it rests on decision D15, log entry
5): an add without carry directly after one
that carried leaves `(0, 1)`; it stays while no carry is produced; the next carry lands in `(1, 1)`,
and a `jnc` directly after it jumps and ends in `(0, 0)`. -/
def Obligations.StaleLatchSwallowsTheNextCarry : Prop :=
  ∀ s t : State, step s = .next t →
    (s.c = true → s.d = false → carryWritten s = some false → t.c = false ∧ t.d = true) ∧
    (s.c = false → s.d = true → carryWritten s ≠ some true → t.c = false ∧ t.d = true) ∧
    (s.c = false → s.d = true → carryWritten s = some true →
      t.c = true ∧ t.d = true ∧
      ∀ imm : Nibble, currentByte t = joinFields 0b1110 imm →
        step t = .next { t with c := false, d := false, pc := imm, outcome := some .ok })

/-- Back-to-back carries (derived in spec/70_reset_and_hazards.md R214; it rests on decision D15, log
entry 5): the second of two carries in
consecutive steps is lost, so a `jnc` directly after it jumps. -/
def Obligations.SecondOfTwoCarriesIsLost : Prop :=
  ∀ s t : State, s.c = true → s.d = false → carryWritten s = some true → step s = .next t →
    t.c = true ∧ t.d = true ∧ agedFlag t = false ∧
    ∀ imm : Nibble, currentByte t = joinFields 0b1110 imm →
      step t = .next { t with c := false, d := false, pc := imm, outcome := some .ok }

/-- The drop latch is hidden (spec/10_state.md R35): two states the host reads alike can behave
differently. -/
def Obligations.LatchIsHiddenState : Prop :=
  ∃ s s' t t' : State, hostView s = hostView s' ∧ s.c = true ∧ s'.c = true ∧
    step s = .next t ∧ step s' = .next t' ∧ t.pc ≠ t'.pc

/-! ### Reset, the host's surface and the program store -/

/-- The machine after reset (spec/10_state.md R39). That the store of this state reads 0x00 everywhere
and that no outcome is recorded is the model's choice (log entries 3 and 1). -/
def Obligations.ResetStateValues : Prop :=
  State.reset.a = 0 ∧ State.reset.b = 0 ∧ State.reset.inPort = 0 ∧ State.reset.outPort = 0 ∧
  State.reset.pc = 0 ∧ State.reset.c = false ∧ State.reset.d = false ∧
  State.reset.outcome = none ∧ ∀ addr : Nibble, Memory.read State.reset.prog addr.toNat = .ok 0x00

/-- `reset` clears everything but the program store, from every state, and the next step fetches
`prog[0]` (spec/70_reset_and_hazards.md R200). -/
def Obligations.ResetClearsAllButTheProgram : Prop :=
  ∀ s : State,
    (resetMachine s).a = 0 ∧ (resetMachine s).b = 0 ∧ (resetMachine s).inPort = 0 ∧
    (resetMachine s).outPort = 0 ∧ (resetMachine s).pc = 0 ∧ (resetMachine s).c = false ∧
    (resetMachine s).d = false ∧ (resetMachine s).prog = s.prog ∧
    currentByte (resetMachine s) = Memory.peek s.prog 0 ∧
    step (resetMachine s) = exec (decodeByte (Memory.peek s.prog 0)) (resetMachine s)

/-- Each host write changes the one element it names (spec/10_state.md R38); a debug write of `C`
leaves the drop latch, which is decision D16 (log entry 9). -/
def Obligations.HostWritesTouchOneElement : Prop :=
  ∀ (s : State) (v : Nibble) (f : Bool),
    hostWriteIn v s = { s with inPort := v } ∧ debugWriteA v s = { s with a := v } ∧
    debugWriteB v s = { s with b := v } ∧ debugWriteOut v s = { s with outPort := v } ∧
    debugWriteC f s = { s with c := f } ∧ debugWritePc v s = { s with pc := v }

/-- An `in` instruction reads the value the host last wrote before the step (spec/43_io.md R134). -/
def Obligations.InReadsTheLastHostWrite : Prop :=
  ∀ (s : State) (imm v w : Nibble), ∃ t u : State,
    exec (.inA imm) (hostWriteIn w (hostWriteIn v s)) = .next t ∧ t.a = w ∧ t.inPort = w ∧
    exec (.inB imm) (hostWriteIn w (hostWriteIn v s)) = .next u ∧ u.b = w ∧ u.inPort = w

/-- The address map (spec/20_memory.md R57): addresses 0 to 15 can be read and written, 16 and above do
not exist. That an access there is the fault `noSuchAddress` is the model's choice (log entry 17). -/
def Obligations.AddressMap : Prop :=
  ∀ (m : Memory) (addr : Nat) (v : Byte),
    (addr < 16 → Memory.read m addr = .ok (Memory.peek m addr) ∧
      Memory.write m addr v = .ok (Memory.poke m addr v)) ∧
    (16 ≤ addr → Memory.read m addr = .error (.noSuchAddress addr) ∧
      Memory.write m addr v = .error (.noSuchAddress addr))

/-- A program edit is seen by the next fetch of its address, also under `pc`, and leaves every other
byte alone (spec/20_memory.md R62, R63). The premise is the model's canonical form of the store. -/
def Obligations.EditIsSeenByTheNextFetch : Prop :=
  ∀ (s : State) (addr : Nibble) (v : Byte), Memory.wf s.prog = true →
    Memory.read (editProgram addr v s).prog addr.toNat = .ok v ∧
    (∀ other : Nat, other ≠ addr.toNat →
      Memory.read (editProgram addr v s).prog other = Memory.read s.prog other) ∧
    Memory.wf (editProgram addr v s).prog = true ∧
    (s.pc = addr → step (editProgram addr v s) = exec (decodeByte v) (editProgram addr v s))

/-- Two canonical stores that read alike at the sixteen addresses are equal data: the canonical form is
the model's choice (log entry 3). -/
def Obligations.CanonicalStoresAreExtensional : Prop :=
  ∀ m m' : Memory, Memory.wf m = true → Memory.wf m' = true →
    (∀ addr : Nat, addr < 16 → Memory.peek m addr = Memory.peek m' addr) → m = m'

/-- The loader (spec/70_reset_and_hazards.md R203, spec/60_exceptions.md R174; padding and refusal are
decision D9, log entry 10, and construction in the reset state is D21, log entry 4): an image of at most
16 bytes reads back, padded with 0x00; a longer one is refused with `RomOverflow`; the Engine that is
constructed from an image is the reset state with that store. -/
def Obligations.LoadedImageReadsBack : Prop :=
  ∀ image : List Byte,
    (image.length ≤ 16 → ∃ m : Memory, loadImage image = .ok m ∧ Memory.wf m = true ∧
      construct image = .ok { State.reset with prog := m } ∧
      ∀ addr : Nibble, Memory.read m addr.toNat = .ok (image.getD addr.toNat 0x00)) ∧
    (16 < image.length → loadImage image = .error .romOverflow ∧
      construct image = .error .romOverflow)

/-! ### The control surface -/

/-- A run is repeated `step` (spec/60_exceptions.md R183): a run that is let perform `n` steps always
ends, and it is stopped after them exactly when every one of the `n` steps returned `Ok`, in the state
that `n` calls of `step` reach. That a stopped run has performed some whole number `n` of steps, 0
included, is D22 (DEDUCED, log entry 12). -/
def Obligations.RunIsIteratedStep : Prop :=
  ∀ (n : Nat) (s : State),
    (∃ (t : State) (e : RunEnd), runFor n s = .next (t, e)) ∧
    ∀ t : State, runFor n s = .next (t, .stopped) ↔ AllStepsOk n s ∧ stepN n s = .next t

/-- A run delivers exactly its first failure (spec/60_exceptions.md R185). If it delivers `o`, then `o`
is not `Ok`, the last step returned it, and every step before that one returned `Ok`; and the other way
round, a step other than `Ok` within the bound, after steps that all returned `Ok`, is delivered: no
error is swallowed and no step is performed after it. -/
def Obligations.RunDeliversItsFirstFailure : Prop :=
  ∀ (n : Nat) (s t : State) (o : StepOutcome),
    (runFor n s = .next (t, .delivered o) →
      o ≠ .ok ∧ t.outcome = some o ∧
      ∃ (k : Nat) (u : State), k < n ∧ AllStepsOk k s ∧ stepN k s = .next u ∧ step u = .next t) ∧
    ∀ (k : Nat) (u : State), k < n → AllStepsOk k s → stepN k s = .next u → step u = .next t →
      t.outcome = some o → o ≠ .ok → runFor n s = .next (t, .delivered o)

/-- One step of an active run (spec/60_exceptions.md R183): the run goes on after `Ok`; any other
outcome is delivered and ends it. It is stated for a run that was asked to stop too: that such a run may
step again before it exits at the wait boundary (R184) is D22 (DEDUCED, log entry 12), and not R183. -/
def Obligations.ActiveRunStepsUntilItFails : Prop :=
  ∀ (k : Console) (stopRequested : Bool), k.phase = .active stopRequested →
    ∃ (t : State) (o : StepOutcome), step k.engine = .next t ∧ t.outcome = some o ∧
      (o = .ok → act .runStep k = .done { k with engine := t }) ∧
      (o ≠ .ok → act .runStep k = .done { engine := t, phase := .idle, delivered := some o })

/-- `stop` (spec/60_exceptions.md R184): nothing when no run is active; it leaves an active run active
with a stop requested, changes nothing else, and is idempotent; a run so asked exits at the wait
boundary and delivers nothing, and no run exits there unasked. That the exit may come at once or after more
steps is D22 (DEDUCED, log entry 12). -/
def Obligations.StopRules : Prop :=
  ∀ k k' : Console,
    (k.phase = .idle → act .stop k = .done k) ∧
    (∀ stopRequested : Bool, k.phase = .active stopRequested →
      act .stop k = .done { k with phase := .active true } ∧
      act .runExit { k with phase := .active true } = .done { k with phase := .idle }) ∧
    (act .stop k = .done k' → act .stop k' = .done k' ∧ k'.engine = k.engine) ∧
    (act .runExit k = .done k' → k.phase = .active true ∧
      k' = { k with phase := .idle }) ∧
    (k.phase = .active true → act .runExit k = .done { k with phase := .idle })

/-- While a run is active there is no transition for a program edit or for an overlapping `step` or
`run` (spec/20_memory.md R63, spec/60_exceptions.md R186; spec/93_implementation_defined.md U1, U2). That
the model has no transition there is log entry 11. -/
def Obligations.NoEditOrOverlapDuringARun : Prop :=
  ∀ (k : Console) (stopRequested : Bool), k.phase = .active stopRequested →
    act .step k = .stuck ∧ act .startRun k = .stuck ∧
    (∀ (addr : Nibble) (v : Byte), act (.edit addr v) k = .stuck) ∧
    ∀ image : List Byte, act (.install image) k = .stuck

/-- An active run has delivered nothing, and every host action keeps it so (spec/60_exceptions.md
R185: one terminal outcome per run). -/
def Obligations.ActiveRunHasDeliveredNothing : Prop :=
  ∀ (x : Action) (k k' : Console), (k.phase ≠ .idle → k.delivered = none) →
    act x k = .done k' → k'.phase ≠ .idle → k'.delivered = none

/-- The clock edge and the signals of the signal view (spec/10_state.md R40; D1 to D3, log entry 18).
`rst` resets and wins over `step_en`; `step_en` performs one step, when the store drives `prog[rom_addr]`
on `rom_data`, and the outcome signal then shows the outcome of that step; with neither, the machine
changes by the host's write of `IN` at most. That a host write is told by `hostWrites` and comes before
the step of its edge is log entry 23. Nothing is said of the outcome signal after an edge without a
step: there it is a free value (log entry 22). -/
def Obligations.ClockEdgeView : Prop :=
  ∀ (inp : InputSignals) (m : SignalModule),
    (inp.rst = true → clockEdge inp m =
      .next { engine := resetMachine m.engine, stepped := false, edges := m.edges + 1 }) ∧
    (inp.rst = false → inp.stepEn = true →
      inp.romData = romDataOf m.engine.prog (outputSignals m).romAddr →
      ∃ (t : State) (o : StepOutcome) (m' : SignalModule),
        step (loadInPort inp m.engine) = .next t ∧ t.outcome = some o ∧
        clockEdge inp m = .next m' ∧ m'.engine = t ∧
        (outputSignals m').outcome = signalOfOutcome o) ∧
    (inp.rst = false → inp.stepEn = false → clockEdge inp m =
      .next { engine := loadInPort inp m.engine, stepped := false, edges := m.edges + 1 }) ∧
    (inp.hostWrites = true → loadInPort inp m.engine = { m.engine with inPort := inp.inPort }) ∧
    (inp.hostWrites = false → loadInPort inp m.engine = m.engine) ∧
    (outputSignals m).romAddr = m.engine.pc ∧ (outputSignals m).outPort = m.engine.outPort ∧
    (outputSignals m).carry = m.engine.c ∧ (outputSignals m).aDbg = m.engine.a ∧
    (outputSignals m).bDbg = m.engine.b

/-- A `run` seen through the signal view (spec/10_state.md R40): while it is active and not asked to
stop it holds `step_en` at 1, the edge does what the run's next step does, and `step_en` stays at 1
exactly when the outcome signal shows `Ok`; after `stop`, an edge at which the run does not step on
leaves the machine as it is. Whether it steps on is D22 (DEDUCED, log entry 12). -/
def Obligations.RunHoldsStepEn : Prop :=
  ∀ (inp : InputSignals) (m : SignalModule) (k : Console) (goesOn : Bool),
    k.engine = m.engine → inp.rst = false → inp.hostWrites = false →
    inp.romData = romDataOf m.engine.prog (outputSignals m).romAddr →
    inp.stepEn = runStepEn k.phase goesOn →
    (k.phase = .active false → ∃ (m' : SignalModule) (k' : Console),
      clockEdge inp m = .next m' ∧ act .runStep k = .done k' ∧ k'.engine = m'.engine ∧
      (runStepEn k'.phase goesOn = true ↔ (outputSignals m').outcome = .ok)) ∧
    (k.phase = .active true → goesOn = false → ∃ m' : SignalModule,
      clockEdge inp m = .next m' ∧ m'.engine = m.engine)

/-! ### Invariants -/

/-- Every step keeps the machine's invariant, from every state that has it: the store stays canonical,
and the recorded outcome tells the truth about the byte `pc` still addresses (spec/60_exceptions.md
R171 to R173, R177). The canonical form and the outcome field are the model's (log entries 3, 1). -/
def Obligations.StepKeepsInvariant : Prop :=
  ∀ s t : State, Inv s → step s = .next t → Inv t

/-- The invariant holds after reset. -/
def Obligations.ResetHasInvariant : Prop := Inv State.reset

/-- Every host action, steps included, keeps the store canonical (the model's form, log entry 3). -/
def Obligations.ActionsKeepTheStoreCanonical : Prop :=
  ∀ (x : Action) (k k' : Console), Memory.wf k.engine.prog = true → act x k = .done k' →
    Memory.wf k'.engine.prog = true

/-! ### The Disassembler -/

/-- The complete output of the Disassembler (derived in spec/45_disassembler.md R157 from R151
to R156). That 0x01 to 0x0F print `add a, n` is decision D7 (log entry 6); the numeral and the text of
illegal bytes are decision D6 (log entry 7). -/
def Obligations.DisassemblerTable : Prop :=
  ∀ imm : Nibble,
    let n : String := toString imm.toNat
    let plus (stem : String) : String := if imm = 0 then stem else stem ++ "+" ++ n
    disassemble (joinFields 0b0000 imm) = (if imm = 0 then "nop" else "add a, " ++ n) ∧
    disassemble (joinFields 0b0001 imm) = plus "mov a, b" ∧
    disassemble (joinFields 0b0010 imm) = plus "in a" ∧
    disassemble (joinFields 0b0011 imm) = "mov a, " ++ n ∧
    disassemble (joinFields 0b0100 imm) = plus "mov b, a" ∧
    disassemble (joinFields 0b0101 imm) = "add b, " ++ n ∧
    disassemble (joinFields 0b0110 imm) = plus "in b" ∧
    disassemble (joinFields 0b0111 imm) = "mov b, " ++ n ∧
    disassemble (joinFields 0b1000 imm) = plus "nop" ∧
    disassemble (joinFields 0b1001 imm) = plus "out b" ∧
    disassemble (joinFields 0b1010 imm) = plus "nop" ∧
    disassemble (joinFields 0b1011 imm) = "out " ++ n ∧
    disassemble (joinFields 0b1100 imm) = plus "nop" ∧
    disassemble (joinFields 0b1101 imm) = plus "nop" ∧
    disassemble (joinFields 0b1110 imm) = "jnc " ++ n ∧
    disassemble (joinFields 0b1111 imm) = "jmp " ++ n

/-- The text determines the byte among the legal encodings, and its length is 3 to 11
(derived in spec/45_disassembler.md R158). It rests on decisions D6 and D7 (log entries 7 and 6). -/
def Obligations.DisassemblyDeterminesLegalBytes : Prop :=
  (∀ b : Byte, 3 ≤ (disassemble b).length ∧ (disassemble b).length ≤ 11) ∧
  ∀ b b' : Byte, isIllegalOpcode (opcodeField b) = false → isIllegalOpcode (opcodeField b') = false →
    disassemble b = disassemble b' → b = b'
end

