-- ==== Sys2Proof/Laws/Memory.lean ====
section
/-! SUPPORT. The laws of the program store: reading after writing, the canonical form, and equality of
canonical stores. -/

namespace Sys2Proof.Machine

@[simp] theorem peek_nil (a : Nat) : Memory.peek [] a = Config.unlistedByte := rfl

theorem peek_cons (k : Nat) (v : Byte) (m : Memory) (a : Nat) :
    Memory.peek ((k, v) :: m) a = if k = a then v else Memory.peek m a := rfl

@[simp] theorem wf_nil : Memory.wf [] = true := rfl

theorem wfFrom_cons (lo k : Nat) (v : Byte) (m : Memory) :
    Memory.wfFrom lo ((k, v) :: m) = true ↔
      lo ≤ k ∧ k < Config.storeSize ∧ v ≠ Config.unlistedByte ∧ Memory.wfFrom (k + 1) m = true := by
  simp [Memory.wfFrom, and_assoc]

/-- A canonical store may be read with a lower bound. -/
theorem wfFrom_mono {lo lo' : Nat} (h : lo' ≤ lo) {m : Memory} (hm : Memory.wfFrom lo m = true) :
    Memory.wfFrom lo' m = true := by
  cases m with
  | nil => rfl
  | cons e rest =>
    obtain ⟨k, v⟩ := e
    rw [wfFrom_cons] at hm ⊢
    exact ⟨Nat.le_trans h hm.1, hm.2⟩

/-- Below the bound of a canonical store nothing is listed. -/
theorem peek_below {lo a : Nat} (h : a < lo) {m : Memory} (hm : Memory.wfFrom lo m = true) :
    Memory.peek m a = Config.unlistedByte := by
  induction m generalizing lo with
  | nil => rfl
  | cons e rest ih =>
    obtain ⟨k, v⟩ := e
    rw [wfFrom_cons] at hm
    rw [peek_cons, if_neg (by omega)]
    exact ih (by omega) hm.2.2.2

/-- Reading a byte after writing it. -/
theorem peek_poke_same {lo : Nat} {m : Memory} (hm : Memory.wfFrom lo m = true) (a : Nat) (v : Byte) :
    Memory.peek (Memory.poke m a v) a = v := by
  induction m generalizing lo with
  | nil => by_cases hv : v = Config.unlistedByte <;> simp [Memory.poke, hv, peek_cons]
  | cons e rest ih =>
    obtain ⟨k, w⟩ := e
    have hr := (wfFrom_cons lo k w rest).1 hm
    unfold Memory.poke
    split
    · split
      · next hak hv => rw [hv]; exact peek_below hak (wfFrom_mono (Nat.le_refl k) ((wfFrom_cons k k w rest).2 ⟨Nat.le_refl k, hr.2⟩))
      · simp [peek_cons]
    · split
      · next hak =>
        subst hak
        split
        · next hv => rw [hv]; exact peek_below (Nat.lt_succ_self _) hr.2.2.2
        · simp [peek_cons]
      · next hne => rw [peek_cons, if_neg (by omega)]; exact ih hr.2.2.2

/-- A write leaves every other byte alone, in any store. -/
theorem peek_poke_other (m : Memory) {a b : Nat} (h : b ≠ a) (v : Byte) :
    Memory.peek (Memory.poke m a v) b = Memory.peek m b := by
  induction m with
  | nil => by_cases hv : v = Config.unlistedByte <;> simp [Memory.poke, hv, peek_cons, Ne.symm h]
  | cons e rest ih =>
    obtain ⟨k, w⟩ := e
    unfold Memory.poke
    split
    · split <;> simp [peek_cons, Ne.symm h]
    · split
      · next hak => subst hak; split <;> simp [peek_cons, Ne.symm h]
      · rw [peek_cons, peek_cons, ih]

/-- A write inside the store keeps the canonical form. -/
theorem wfFrom_poke {lo : Nat} {m : Memory} (hm : Memory.wfFrom lo m = true) {a : Nat} (hlo : lo ≤ a)
    (ha : a < Config.storeSize) (v : Byte) : Memory.wfFrom lo (Memory.poke m a v) = true := by
  induction m generalizing lo with
  | nil =>
    unfold Memory.poke
    split
    · rfl
    · next hv => exact (wfFrom_cons _ _ _ _).2 ⟨hlo, ha, hv, rfl⟩
  | cons e rest ih =>
    obtain ⟨k, w⟩ := e
    have hr := (wfFrom_cons lo k w rest).1 hm
    unfold Memory.poke
    split
    · split
      · exact hm
      · next hak hv =>
        exact (wfFrom_cons _ _ _ _).2 ⟨hlo, ha, hv, (wfFrom_cons _ _ _ _).2 ⟨hak, hr.2⟩⟩
    · split
      · next hak =>
        subst hak
        split
        · exact wfFrom_mono (by omega) hr.2.2.2
        · next hv => exact (wfFrom_cons _ _ _ _).2 ⟨hlo, ha, hv, hr.2.2.2⟩
      · exact (wfFrom_cons _ _ _ _).2 ⟨hr.1, hr.2.1, hr.2.2.1, ih hr.2.2.2 (by omega)⟩

theorem wf_poke {m : Memory} (hm : Memory.wf m = true) {a : Nat} (ha : a < Config.storeSize)
    (v : Byte) : Memory.wf (Memory.poke m a v) = true :=
  wfFrom_poke hm (Nat.zero_le a) ha v

/-- A host write, when it is one, keeps the canonical form. -/
theorem wf_write {m m' : Memory} (hm : Memory.wf m = true) {a : Nat} {v : Byte}
    (h : Memory.write m a v = .ok m') : Memory.wf m' = true := by
  unfold Memory.write at h
  split at h
  · next ha => cases h; exact wf_poke hm ha v
  · cases h

/-- A store made from bytes that fit is canonical. -/
theorem wfFrom_ofBytes (bytes : List Byte) (base : Nat)
    (h : base + bytes.length ≤ Config.storeSize) :
    Memory.wfFrom base (Memory.ofBytes base bytes) = true := by
  induction bytes generalizing base with
  | nil => rfl
  | cons v rest ih =>
    have hl : base + 1 + rest.length ≤ Config.storeSize := by simpa [Nat.add_assoc, Nat.add_comm 1] using h
    unfold Memory.ofBytes
    split
    · exact wfFrom_mono (Nat.le_succ base) (ih (base + 1) hl)
    · next hv => exact (wfFrom_cons _ _ _ _).2 ⟨Nat.le_refl _, by omega, hv, ih (base + 1) hl⟩

/-- Nothing is listed below the base of a store made from bytes. -/
theorem peek_ofBytes_below (bytes : List Byte) (base a : Nat) (h : a < base) :
    Memory.peek (Memory.ofBytes base bytes) a = Config.unlistedByte := by
  induction bytes generalizing base with
  | nil => rfl
  | cons v rest ih =>
    unfold Memory.ofBytes
    split
    · exact ih (base + 1) (by omega)
    · rw [peek_cons, if_neg (by omega)]; exact ih (base + 1) (by omega)

/-- Byte `i` of the image stands at `base + i`, and the padding byte stands after the image. -/
theorem peek_ofBytes (bytes : List Byte) (base i : Nat) :
    Memory.peek (Memory.ofBytes base bytes) (base + i) = bytes.getD i Config.unlistedByte := by
  induction bytes generalizing base i with
  | nil => simp [Memory.ofBytes]
  | cons v rest ih =>
    unfold Memory.ofBytes
    cases i with
    | zero =>
      split
      · next hv => simpa [hv] using peek_ofBytes_below rest (base + 1) base (Nat.lt_succ_self _)
      · simp [peek_cons]
    | succ j =>
      have hj : base + (j + 1) = base + 1 + j := by omega
      split
      · rw [hj, ih]; simp
      · rw [peek_cons, if_neg (by omega), hj, ih]; simp

@[simp] theorem read_of_lt {a : Nat} (h : a < Config.storeSize) (m : Memory) :
    Memory.read m a = .ok (Memory.peek m a) := by
  simp [Memory.read, h]

end Sys2Proof.Machine
end

