-- ==== Sys2Proof/Laws/State.lean ====
section
/-! SUPPORT. One lemma per field per update of the state, so that no later proof unfolds an update. -/

namespace Sys2Proof.Machine

/-! ### The carry-latch update -/

@[simp] theorem latchUpdate_a (s : State) :
    (latchUpdate s).a = s.a := rfl

@[simp] theorem latchUpdate_b (s : State) :
    (latchUpdate s).b = s.b := rfl

@[simp] theorem latchUpdate_pc (s : State) :
    (latchUpdate s).pc = s.pc := rfl

@[simp] theorem latchUpdate_c (s : State) :
    (latchUpdate s).c = agedFlag s := by
  cases hc : s.c <;> cases hd : s.d <;> simp [latchUpdate, ageCarry, agedFlag, hc, hd]

@[simp] theorem latchUpdate_d (s : State) :
    (latchUpdate s).d = agedLatch s := by
  cases hc : s.c <;> cases hd : s.d <;> simp [latchUpdate, ageCarry, agedLatch, hc, hd]

@[simp] theorem latchUpdate_inPort (s : State) :
    (latchUpdate s).inPort = s.inPort := rfl

@[simp] theorem latchUpdate_outPort (s : State) :
    (latchUpdate s).outPort = s.outPort := rfl

@[simp] theorem latchUpdate_prog (s : State) :
    (latchUpdate s).prog = s.prog := rfl

@[simp] theorem latchUpdate_outcome (s : State) :
    (latchUpdate s).outcome = s.outcome := rfl


/-! ### The flag write of an add -/

@[simp] theorem writeCarry_a (cout : Bool) (s : State) :
    (writeCarry cout s).a = s.a := rfl

@[simp] theorem writeCarry_b (cout : Bool) (s : State) :
    (writeCarry cout s).b = s.b := rfl

@[simp] theorem writeCarry_pc (cout : Bool) (s : State) :
    (writeCarry cout s).pc = s.pc := rfl

@[simp] theorem writeCarry_c (cout : Bool) (s : State) :
    (writeCarry cout s).c = cout := rfl

@[simp] theorem writeCarry_d (cout : Bool) (s : State) :
    (writeCarry cout s).d = s.d := rfl

@[simp] theorem writeCarry_inPort (cout : Bool) (s : State) :
    (writeCarry cout s).inPort = s.inPort := rfl

@[simp] theorem writeCarry_outPort (cout : Bool) (s : State) :
    (writeCarry cout s).outPort = s.outPort := rfl

@[simp] theorem writeCarry_prog (cout : Bool) (s : State) :
    (writeCarry cout s).prog = s.prog := rfl

@[simp] theorem writeCarry_outcome (cout : Bool) (s : State) :
    (writeCarry cout s).outcome = s.outcome := rfl


/-! ### A write of `A` by an instruction -/

@[simp] theorem writeDest_regA_a (v : Nibble) (s : State) :
    (writeDest .regA v s).a = v := rfl

@[simp] theorem writeDest_regA_b (v : Nibble) (s : State) :
    (writeDest .regA v s).b = s.b := rfl

@[simp] theorem writeDest_regA_pc (v : Nibble) (s : State) :
    (writeDest .regA v s).pc = s.pc := rfl

@[simp] theorem writeDest_regA_c (v : Nibble) (s : State) :
    (writeDest .regA v s).c = s.c := rfl

@[simp] theorem writeDest_regA_d (v : Nibble) (s : State) :
    (writeDest .regA v s).d = s.d := rfl

@[simp] theorem writeDest_regA_inPort (v : Nibble) (s : State) :
    (writeDest .regA v s).inPort = s.inPort := rfl

@[simp] theorem writeDest_regA_outPort (v : Nibble) (s : State) :
    (writeDest .regA v s).outPort = s.outPort := rfl

@[simp] theorem writeDest_regA_prog (v : Nibble) (s : State) :
    (writeDest .regA v s).prog = s.prog := rfl

@[simp] theorem writeDest_regA_outcome (v : Nibble) (s : State) :
    (writeDest .regA v s).outcome = s.outcome := rfl


/-! ### A write of `B` by an instruction -/

@[simp] theorem writeDest_regB_a (v : Nibble) (s : State) :
    (writeDest .regB v s).a = s.a := rfl

@[simp] theorem writeDest_regB_b (v : Nibble) (s : State) :
    (writeDest .regB v s).b = v := rfl

@[simp] theorem writeDest_regB_pc (v : Nibble) (s : State) :
    (writeDest .regB v s).pc = s.pc := rfl

@[simp] theorem writeDest_regB_c (v : Nibble) (s : State) :
    (writeDest .regB v s).c = s.c := rfl

@[simp] theorem writeDest_regB_d (v : Nibble) (s : State) :
    (writeDest .regB v s).d = s.d := rfl

@[simp] theorem writeDest_regB_inPort (v : Nibble) (s : State) :
    (writeDest .regB v s).inPort = s.inPort := rfl

@[simp] theorem writeDest_regB_outPort (v : Nibble) (s : State) :
    (writeDest .regB v s).outPort = s.outPort := rfl

@[simp] theorem writeDest_regB_prog (v : Nibble) (s : State) :
    (writeDest .regB v s).prog = s.prog := rfl

@[simp] theorem writeDest_regB_outcome (v : Nibble) (s : State) :
    (writeDest .regB v s).outcome = s.outcome := rfl


/-! ### A write of `OUT` by an instruction -/

@[simp] theorem writeDest_portOut_a (v : Nibble) (s : State) :
    (writeDest .portOut v s).a = s.a := rfl

@[simp] theorem writeDest_portOut_b (v : Nibble) (s : State) :
    (writeDest .portOut v s).b = s.b := rfl

@[simp] theorem writeDest_portOut_pc (v : Nibble) (s : State) :
    (writeDest .portOut v s).pc = s.pc := rfl

@[simp] theorem writeDest_portOut_c (v : Nibble) (s : State) :
    (writeDest .portOut v s).c = s.c := rfl

@[simp] theorem writeDest_portOut_d (v : Nibble) (s : State) :
    (writeDest .portOut v s).d = s.d := rfl

@[simp] theorem writeDest_portOut_inPort (v : Nibble) (s : State) :
    (writeDest .portOut v s).inPort = s.inPort := rfl

@[simp] theorem writeDest_portOut_outPort (v : Nibble) (s : State) :
    (writeDest .portOut v s).outPort = v := rfl

@[simp] theorem writeDest_portOut_prog (v : Nibble) (s : State) :
    (writeDest .portOut v s).prog = s.prog := rfl

@[simp] theorem writeDest_portOut_outcome (v : Nibble) (s : State) :
    (writeDest .portOut v s).outcome = s.outcome := rfl


/-! ### Reset -/

@[simp] theorem resetMachine_a (s : State) :
    (resetMachine s).a = 0 := rfl

@[simp] theorem resetMachine_b (s : State) :
    (resetMachine s).b = 0 := rfl

@[simp] theorem resetMachine_pc (s : State) :
    (resetMachine s).pc = 0 := rfl

@[simp] theorem resetMachine_c (s : State) :
    (resetMachine s).c = false := rfl

@[simp] theorem resetMachine_d (s : State) :
    (resetMachine s).d = false := rfl

@[simp] theorem resetMachine_inPort (s : State) :
    (resetMachine s).inPort = 0 := rfl

@[simp] theorem resetMachine_outPort (s : State) :
    (resetMachine s).outPort = 0 := rfl

@[simp] theorem resetMachine_prog (s : State) :
    (resetMachine s).prog = s.prog := rfl

@[simp] theorem resetMachine_outcome (s : State) :
    (resetMachine s).outcome = none := rfl


/-! ### The host's write `hostWriteIn` -/

@[simp] theorem hostWriteIn_a (v : Nibble) (s : State) :
    (hostWriteIn v s).a = s.a := rfl

@[simp] theorem hostWriteIn_b (v : Nibble) (s : State) :
    (hostWriteIn v s).b = s.b := rfl

@[simp] theorem hostWriteIn_pc (v : Nibble) (s : State) :
    (hostWriteIn v s).pc = s.pc := rfl

@[simp] theorem hostWriteIn_c (v : Nibble) (s : State) :
    (hostWriteIn v s).c = s.c := rfl

@[simp] theorem hostWriteIn_d (v : Nibble) (s : State) :
    (hostWriteIn v s).d = s.d := rfl

@[simp] theorem hostWriteIn_inPort (v : Nibble) (s : State) :
    (hostWriteIn v s).inPort = v := rfl

@[simp] theorem hostWriteIn_outPort (v : Nibble) (s : State) :
    (hostWriteIn v s).outPort = s.outPort := rfl

@[simp] theorem hostWriteIn_prog (v : Nibble) (s : State) :
    (hostWriteIn v s).prog = s.prog := rfl

@[simp] theorem hostWriteIn_outcome (v : Nibble) (s : State) :
    (hostWriteIn v s).outcome = s.outcome := rfl


/-! ### The host's write `debugWriteA` -/

@[simp] theorem debugWriteA_a (v : Nibble) (s : State) :
    (debugWriteA v s).a = v := rfl

@[simp] theorem debugWriteA_b (v : Nibble) (s : State) :
    (debugWriteA v s).b = s.b := rfl

@[simp] theorem debugWriteA_pc (v : Nibble) (s : State) :
    (debugWriteA v s).pc = s.pc := rfl

@[simp] theorem debugWriteA_c (v : Nibble) (s : State) :
    (debugWriteA v s).c = s.c := rfl

@[simp] theorem debugWriteA_d (v : Nibble) (s : State) :
    (debugWriteA v s).d = s.d := rfl

@[simp] theorem debugWriteA_inPort (v : Nibble) (s : State) :
    (debugWriteA v s).inPort = s.inPort := rfl

@[simp] theorem debugWriteA_outPort (v : Nibble) (s : State) :
    (debugWriteA v s).outPort = s.outPort := rfl

@[simp] theorem debugWriteA_prog (v : Nibble) (s : State) :
    (debugWriteA v s).prog = s.prog := rfl

@[simp] theorem debugWriteA_outcome (v : Nibble) (s : State) :
    (debugWriteA v s).outcome = s.outcome := rfl


/-! ### The host's write `debugWriteB` -/

@[simp] theorem debugWriteB_a (v : Nibble) (s : State) :
    (debugWriteB v s).a = s.a := rfl

@[simp] theorem debugWriteB_b (v : Nibble) (s : State) :
    (debugWriteB v s).b = v := rfl

@[simp] theorem debugWriteB_pc (v : Nibble) (s : State) :
    (debugWriteB v s).pc = s.pc := rfl

@[simp] theorem debugWriteB_c (v : Nibble) (s : State) :
    (debugWriteB v s).c = s.c := rfl

@[simp] theorem debugWriteB_d (v : Nibble) (s : State) :
    (debugWriteB v s).d = s.d := rfl

@[simp] theorem debugWriteB_inPort (v : Nibble) (s : State) :
    (debugWriteB v s).inPort = s.inPort := rfl

@[simp] theorem debugWriteB_outPort (v : Nibble) (s : State) :
    (debugWriteB v s).outPort = s.outPort := rfl

@[simp] theorem debugWriteB_prog (v : Nibble) (s : State) :
    (debugWriteB v s).prog = s.prog := rfl

@[simp] theorem debugWriteB_outcome (v : Nibble) (s : State) :
    (debugWriteB v s).outcome = s.outcome := rfl


/-! ### The host's write `debugWriteOut` -/

@[simp] theorem debugWriteOut_a (v : Nibble) (s : State) :
    (debugWriteOut v s).a = s.a := rfl

@[simp] theorem debugWriteOut_b (v : Nibble) (s : State) :
    (debugWriteOut v s).b = s.b := rfl

@[simp] theorem debugWriteOut_pc (v : Nibble) (s : State) :
    (debugWriteOut v s).pc = s.pc := rfl

@[simp] theorem debugWriteOut_c (v : Nibble) (s : State) :
    (debugWriteOut v s).c = s.c := rfl

@[simp] theorem debugWriteOut_d (v : Nibble) (s : State) :
    (debugWriteOut v s).d = s.d := rfl

@[simp] theorem debugWriteOut_inPort (v : Nibble) (s : State) :
    (debugWriteOut v s).inPort = s.inPort := rfl

@[simp] theorem debugWriteOut_outPort (v : Nibble) (s : State) :
    (debugWriteOut v s).outPort = v := rfl

@[simp] theorem debugWriteOut_prog (v : Nibble) (s : State) :
    (debugWriteOut v s).prog = s.prog := rfl

@[simp] theorem debugWriteOut_outcome (v : Nibble) (s : State) :
    (debugWriteOut v s).outcome = s.outcome := rfl


/-! ### The host's write `debugWriteC` -/

@[simp] theorem debugWriteC_a (v : Bool) (s : State) :
    (debugWriteC v s).a = s.a := rfl

@[simp] theorem debugWriteC_b (v : Bool) (s : State) :
    (debugWriteC v s).b = s.b := rfl

@[simp] theorem debugWriteC_pc (v : Bool) (s : State) :
    (debugWriteC v s).pc = s.pc := rfl

@[simp] theorem debugWriteC_c (v : Bool) (s : State) :
    (debugWriteC v s).c = v := rfl

@[simp] theorem debugWriteC_d (v : Bool) (s : State) :
    (debugWriteC v s).d = s.d := rfl

@[simp] theorem debugWriteC_inPort (v : Bool) (s : State) :
    (debugWriteC v s).inPort = s.inPort := rfl

@[simp] theorem debugWriteC_outPort (v : Bool) (s : State) :
    (debugWriteC v s).outPort = s.outPort := rfl

@[simp] theorem debugWriteC_prog (v : Bool) (s : State) :
    (debugWriteC v s).prog = s.prog := rfl

@[simp] theorem debugWriteC_outcome (v : Bool) (s : State) :
    (debugWriteC v s).outcome = s.outcome := rfl


/-! ### The host's write `debugWritePc` -/

@[simp] theorem debugWritePc_a (v : Nibble) (s : State) :
    (debugWritePc v s).a = s.a := rfl

@[simp] theorem debugWritePc_b (v : Nibble) (s : State) :
    (debugWritePc v s).b = s.b := rfl

@[simp] theorem debugWritePc_pc (v : Nibble) (s : State) :
    (debugWritePc v s).pc = v := rfl

@[simp] theorem debugWritePc_c (v : Nibble) (s : State) :
    (debugWritePc v s).c = s.c := rfl

@[simp] theorem debugWritePc_d (v : Nibble) (s : State) :
    (debugWritePc v s).d = s.d := rfl

@[simp] theorem debugWritePc_inPort (v : Nibble) (s : State) :
    (debugWritePc v s).inPort = s.inPort := rfl

@[simp] theorem debugWritePc_outPort (v : Nibble) (s : State) :
    (debugWritePc v s).outPort = s.outPort := rfl

@[simp] theorem debugWritePc_prog (v : Nibble) (s : State) :
    (debugWritePc v s).prog = s.prog := rfl

@[simp] theorem debugWritePc_outcome (v : Nibble) (s : State) :
    (debugWritePc v s).outcome = s.outcome := rfl


/-! ### A program edit -/

@[simp] theorem editProgram_a (addr : Nibble) (byte : Byte) (s : State) :
    (editProgram addr byte s).a = s.a := rfl

@[simp] theorem editProgram_b (addr : Nibble) (byte : Byte) (s : State) :
    (editProgram addr byte s).b = s.b := rfl

@[simp] theorem editProgram_pc (addr : Nibble) (byte : Byte) (s : State) :
    (editProgram addr byte s).pc = s.pc := rfl

@[simp] theorem editProgram_c (addr : Nibble) (byte : Byte) (s : State) :
    (editProgram addr byte s).c = s.c := rfl

@[simp] theorem editProgram_d (addr : Nibble) (byte : Byte) (s : State) :
    (editProgram addr byte s).d = s.d := rfl

@[simp] theorem editProgram_inPort (addr : Nibble) (byte : Byte) (s : State) :
    (editProgram addr byte s).inPort = s.inPort := rfl

@[simp] theorem editProgram_outPort (addr : Nibble) (byte : Byte) (s : State) :
    (editProgram addr byte s).outPort = s.outPort := rfl

@[simp] theorem editProgram_prog (addr : Nibble) (byte : Byte) (s : State) :
    (editProgram addr byte s).prog = Memory.poke s.prog addr.toNat byte := rfl

@[simp] theorem editProgram_outcome (addr : Nibble) (byte : Byte) (s : State) :
    (editProgram addr byte s).outcome = s.outcome := rfl


/-! ### Placing an instruction at `pc` -/

@[simp] theorem withFetchWord_a (s : State) (nbits w : Nat) :
    (s.withFetchWord nbits w).a = s.a := rfl

@[simp] theorem withFetchWord_b (s : State) (nbits w : Nat) :
    (s.withFetchWord nbits w).b = s.b := rfl

@[simp] theorem withFetchWord_pc (s : State) (nbits w : Nat) :
    (s.withFetchWord nbits w).pc = s.pc := rfl

@[simp] theorem withFetchWord_c (s : State) (nbits w : Nat) :
    (s.withFetchWord nbits w).c = s.c := rfl

@[simp] theorem withFetchWord_d (s : State) (nbits w : Nat) :
    (s.withFetchWord nbits w).d = s.d := rfl

@[simp] theorem withFetchWord_inPort (s : State) (nbits w : Nat) :
    (s.withFetchWord nbits w).inPort = s.inPort := rfl

@[simp] theorem withFetchWord_outPort (s : State) (nbits w : Nat) :
    (s.withFetchWord nbits w).outPort = s.outPort := rfl

@[simp] theorem withFetchWord_prog (s : State) (nbits w : Nat) :
    (s.withFetchWord nbits w).prog = Memory.poke s.prog s.pc.toNat (BitVec.ofNat 8 w) := rfl

@[simp] theorem withFetchWord_outcome (s : State) (nbits w : Nat) :
    (s.withFetchWord nbits w).outcome = s.outcome := rfl

end Sys2Proof.Machine
end

