-- ==== Sys2Proof/Laws/Ops.lean ====
section
/-! SUPPORT. One lemma per shared operation, saying once everything it can do. -/

namespace Sys2Proof.Machine

/-- Every 4-bit address exists. -/
theorem nibble_lt_storeSize (n : Nibble) : n.toNat < Config.storeSize := n.isLt

/-- No 4-bit operand exceeds 0x0F (R94). -/
theorem not_operand_overflow (imm : Nibble) : ¬ 0x0F < imm.toNat := by
  have := imm.isLt
  omega

/-- What the latch update leaves (R95). -/
theorem latchUpdate_eq (s : State) : latchUpdate s = { s with c := agedFlag s, d := agedLatch s } := by
  have hc := latchUpdate_c s
  have hd := latchUpdate_d s
  cases h : latchUpdate s
  simp_all [latchUpdate]

/-- What the flag write of an add leaves (R26, R27). -/
theorem writeCarry_eq (cout : Bool) (s : State) : writeCarry cout s = { s with c := cout } := rfl

/-- Parts 4 and 5 always pass the aged state on to the effect (R94, R95). -/
@[simp] theorem dispatchWith_eq (imm : Nibble) (effect : State → StepResult) (s : State) :
    dispatchWith imm effect s = effect (latchUpdate s) :=
  if_neg (not_operand_overflow imm)

@[simp] theorem raiseOutcome_eq (o : StepOutcome) (s : State) :
    raiseOutcome o s = .next { s with outcome := some o } := rfl

@[simp] theorem advance_eq (s : State) :
    advance s = .next { s with pc := s.pc + 1, outcome := some .ok } := rfl

@[simp] theorem jumpTo_eq (target : Nibble) (s : State) :
    jumpTo target s = .next { s with pc := target, outcome := some .ok } := rfl

/-- A transfer writes its destination, advances and returns `Ok`. -/
theorem transfer_eq (dst : Dest) (src : Source) (s : State) :
    transfer dst src s =
      .next { writeDest dst (readSource src s) s with
        pc := (writeDest dst (readSource src s) s).pc + 1, outcome := some .ok } := rfl

/-- An adding transfer writes the sum and the carry, advances and returns `Ok`. -/
theorem addTransfer_eq (dst : Dest) (src : Source) (imm : Nibble) (s : State) :
    addTransfer dst src imm s =
      .next { writeDest dst (add4 (readSource src s) imm).sum s with
        c := (add4 (readSource src s) imm).carry
        pc := (writeDest dst (add4 (readSource src s) imm).sum s).pc + 1
        outcome := some .ok } := rfl

/-- No destination is the program counter, the store, the input port, a flag or the outcome. -/
@[simp] theorem writeDest_pc (dst : Dest) (v : Nibble) (s : State) : (writeDest dst v s).pc = s.pc := by
  cases dst <;> rfl

@[simp] theorem writeDest_c (dst : Dest) (v : Nibble) (s : State) : (writeDest dst v s).c = s.c := by
  cases dst <;> rfl

@[simp] theorem writeDest_d (dst : Dest) (v : Nibble) (s : State) : (writeDest dst v s).d = s.d := by
  cases dst <;> rfl

@[simp] theorem writeDest_inPort (dst : Dest) (v : Nibble) (s : State) :
    (writeDest dst v s).inPort = s.inPort := by
  cases dst <;> rfl

@[simp] theorem writeDest_prog (dst : Dest) (v : Nibble) (s : State) :
    (writeDest dst v s).prog = s.prog := by
  cases dst <;> rfl

/-- The fetch reads the current byte and cannot fail (R91). -/
@[simp] theorem fetchByte_eq (s : State) : fetchByte s = .ok (currentByte s) :=
  read_of_lt (nibble_lt_storeSize s.pc) s.prog

/-- The outcome field takes no part in which byte is fetched. -/
@[simp] theorem currentByte_outcome (s : State) (o : Option StepOutcome) :
    currentByte { s with outcome := o } = currentByte s := rfl

/-- Nor do the flags. -/
@[simp] theorem currentByte_latchUpdate (s : State) : currentByte (latchUpdate s) = currentByte s := rfl

/-- The byte placed at `pc` is the byte fetched. -/
theorem currentByte_withFetchWord {s : State} (h : Memory.wf s.prog = true) (nbits w : Nat) :
    currentByte (s.withFetchWord nbits w) = BitVec.ofNat 8 w :=
  peek_poke_same h s.pc.toNat _

end Sys2Proof.Machine
end

