-- ==== Sys2Proof/Laws/PerInstr.lean ====
section
/-! SUPPORT. Statements for every instruction as syntax, one lemma per constructor. -/

namespace Sys2Proof.Laws

/-- The fields of a joined byte are the fields it was joined from (R71). -/
theorem fields_of_join : ∀ opcode imm : Nibble,
    opcodeField (joinFields opcode imm) = opcode ∧ immField (joinFields opcode imm) = imm := by
  decide

/-- Only two zero fields join to the byte 0x00. -/
theorem join_eq_zero : ∀ opcode imm : Nibble, joinFields opcode imm = 0 → opcode = 0 ∧ imm = 0 := by
  decide

/-- A byte other than 0x00 decodes by its fields (R73). -/
theorem decodeByte_join {opcode imm : Nibble} (h : ¬ (opcode = 0 ∧ imm = 0)) :
    decodeByte (joinFields opcode imm) = decodeFields opcode imm := by
  unfold decodeByte
  rw [if_neg (fun e => h (join_eq_zero opcode imm e)), (fields_of_join opcode imm).1,
    (fields_of_join opcode imm).2]

/-! The opcode map, row by row (R74, R75). -/

theorem decodeFields_addA : ∀ imm : Nibble, decodeFields 0b0000 imm = .addA imm := by decide
theorem decodeFields_movAB : ∀ imm : Nibble, decodeFields 0b0001 imm = .movAB imm := by decide
theorem decodeFields_inA : ∀ imm : Nibble, decodeFields 0b0010 imm = .inA imm := by decide
theorem decodeFields_movAImm : ∀ imm : Nibble, decodeFields 0b0011 imm = .movAImm imm := by decide
theorem decodeFields_movBA : ∀ imm : Nibble, decodeFields 0b0100 imm = .movBA imm := by decide
theorem decodeFields_addB : ∀ imm : Nibble, decodeFields 0b0101 imm = .addB imm := by decide
theorem decodeFields_inB : ∀ imm : Nibble, decodeFields 0b0110 imm = .inB imm := by decide
theorem decodeFields_movBImm : ∀ imm : Nibble, decodeFields 0b0111 imm = .movBImm imm := by decide
theorem decodeFields_illegal1000 : ∀ imm : Nibble, decodeFields 0b1000 imm = .illegal1000 imm := by decide
theorem decodeFields_outB : ∀ imm : Nibble, decodeFields 0b1001 imm = .outB imm := by decide
theorem decodeFields_illegal1010 : ∀ imm : Nibble, decodeFields 0b1010 imm = .illegal1010 imm := by decide
theorem decodeFields_outImm : ∀ imm : Nibble, decodeFields 0b1011 imm = .outImm imm := by decide
theorem decodeFields_illegal1100 : ∀ imm : Nibble, decodeFields 0b1100 imm = .illegal1100 imm := by decide
theorem decodeFields_illegal1101 : ∀ imm : Nibble, decodeFields 0b1101 imm = .illegal1101 imm := by decide
theorem decodeFields_jnc : ∀ imm : Nibble, decodeFields 0b1110 imm = .jnc imm := by decide
theorem decodeFields_jmp : ∀ imm : Nibble, decodeFields 0b1111 imm = .jmp imm := by decide

/-- The byte of an instruction other than `nop` and `addA 0` decodes by the instruction's fields. -/
theorem decodeByte_encodeByte (i : Instr) (h : ¬ (opcodeOf i = 0 ∧ immOf i = 0)) :
    decodeByte (encodeByte i) = decodeFields (opcodeOf i) (immOf i) :=
  decodeByte_join h

/-- Decoding the byte of a well-formed instruction gives the instruction back. -/
def RoundTrip.Statement (i : Instr) : Prop := WellFormed i = true → decodeByte (encodeByte i) = i

theorem RoundTrip.addA (imm : Nibble) : RoundTrip.Statement (.addA imm) := fun h =>
  (decodeByte_encodeByte _ (fun hz => by simp [WellFormed] at h; exact h hz.2)).trans
    (decodeFields_addA imm)

theorem RoundTrip.movAB (imm : Nibble) : RoundTrip.Statement (.movAB imm) := fun _ =>
  (decodeByte_encodeByte _ (by simp [opcodeOf])).trans (decodeFields_movAB imm)

theorem RoundTrip.inA (imm : Nibble) : RoundTrip.Statement (.inA imm) := fun _ =>
  (decodeByte_encodeByte _ (by simp [opcodeOf])).trans (decodeFields_inA imm)

theorem RoundTrip.movAImm (imm : Nibble) : RoundTrip.Statement (.movAImm imm) := fun _ =>
  (decodeByte_encodeByte _ (by simp [opcodeOf])).trans (decodeFields_movAImm imm)

theorem RoundTrip.movBA (imm : Nibble) : RoundTrip.Statement (.movBA imm) := fun _ =>
  (decodeByte_encodeByte _ (by simp [opcodeOf])).trans (decodeFields_movBA imm)

theorem RoundTrip.addB (imm : Nibble) : RoundTrip.Statement (.addB imm) := fun _ =>
  (decodeByte_encodeByte _ (by simp [opcodeOf])).trans (decodeFields_addB imm)

theorem RoundTrip.inB (imm : Nibble) : RoundTrip.Statement (.inB imm) := fun _ =>
  (decodeByte_encodeByte _ (by simp [opcodeOf])).trans (decodeFields_inB imm)

theorem RoundTrip.movBImm (imm : Nibble) : RoundTrip.Statement (.movBImm imm) := fun _ =>
  (decodeByte_encodeByte _ (by simp [opcodeOf])).trans (decodeFields_movBImm imm)

theorem RoundTrip.outB (imm : Nibble) : RoundTrip.Statement (.outB imm) := fun _ =>
  (decodeByte_encodeByte _ (by simp [opcodeOf])).trans (decodeFields_outB imm)

theorem RoundTrip.outImm (imm : Nibble) : RoundTrip.Statement (.outImm imm) := fun _ =>
  (decodeByte_encodeByte _ (by simp [opcodeOf])).trans (decodeFields_outImm imm)

theorem RoundTrip.jnc (imm : Nibble) : RoundTrip.Statement (.jnc imm) := fun _ =>
  (decodeByte_encodeByte _ (by simp [opcodeOf])).trans (decodeFields_jnc imm)

theorem RoundTrip.jmp (imm : Nibble) : RoundTrip.Statement (.jmp imm) := fun _ =>
  (decodeByte_encodeByte _ (by simp [opcodeOf])).trans (decodeFields_jmp imm)

theorem RoundTrip.nop : RoundTrip.Statement .nop := fun _ => rfl

theorem RoundTrip.illegal1000 (imm : Nibble) : RoundTrip.Statement (.illegal1000 imm) := fun _ =>
  (decodeByte_encodeByte _ (by simp [opcodeOf])).trans (decodeFields_illegal1000 imm)

theorem RoundTrip.illegal1010 (imm : Nibble) : RoundTrip.Statement (.illegal1010 imm) := fun _ =>
  (decodeByte_encodeByte _ (by simp [opcodeOf])).trans (decodeFields_illegal1010 imm)

theorem RoundTrip.illegal1100 (imm : Nibble) : RoundTrip.Statement (.illegal1100 imm) := fun _ =>
  (decodeByte_encodeByte _ (by simp [opcodeOf])).trans (decodeFields_illegal1100 imm)

theorem RoundTrip.illegal1101 (imm : Nibble) : RoundTrip.Statement (.illegal1101 imm) := fun _ =>
  (decodeByte_encodeByte _ (by simp [opcodeOf])).trans (decodeFields_illegal1101 imm)

end Sys2Proof.Laws
end

