-- ==== Sys2Proof/Laws/Run.lean ====
section
/-! SUPPORT. The unfolding lemmas of repeated steps and of runs, one per way a step can end. -/

namespace Sys2Proof.Machine

@[simp] theorem stepN_zero (s : State) : stepN 0 s = .next s := rfl

/-- One step, then the rest. -/
theorem stepN_succ {s t : State} (h : step s = .next t) (n : Nat) : stepN (n + 1) s = stepN n t := by
  simp [stepN, h]

/-- A machine's run goes on after a step that answers a next state. -/
theorem core_run_next (M : Host.Core) {s t : M.State} (h : M.step s = .next t) (n : Nat) :
    M.run (n + 1) s = M.run n t := by
  rw [Host.Core.run, h]

/-- A machine's run stops at a fault. -/
theorem core_run_fault (M : Host.Core) {s : M.State} {f : M.Fault} (h : M.step s = .fault f)
    (n : Nat) : M.run (n + 1) s = .fault f := by
  rw [Host.Core.run, h]

/-- A machine's run stops at a refusal. -/
theorem core_run_refused (M : Host.Core) {s : M.State} {r : M.Refusal} (h : M.step s = .refused r)
    (n : Nat) : M.run (n + 1) s = .refused r := by
  rw [Host.Core.run, h]

/-- Repeated steps are the host's own run of the machine. -/
theorem stepN_eq_core_run (n : Nat) (s : State) :
    stepN n s = Host.Core.run Sys2Proof.core n s := by
  induction n generalizing s with
  | zero => rfl
  | succ k ih =>
    unfold stepN
    cases h : step s with
    | next t => exact (ih t).trans (core_run_next Sys2Proof.core h k).symm
    | fault f => exact (core_run_fault Sys2Proof.core h k).symm
    | refused r => exact (core_run_refused Sys2Proof.core h k).symm

@[simp] theorem runFor_zero (s : State) : runFor 0 s = .next (s, .stopped) := rfl

/-- A run goes on after a step that returns `Ok` (R183). -/
theorem runFor_succ_ok {s t : State} (h : step s = .next t) (ho : t.outcome = some .ok) (n : Nat) :
    runFor (n + 1) s = runFor n t := by
  simp [runFor, h, ho]

/-- A run ends with any other outcome and delivers it (R183, R185). -/
theorem runFor_succ_delivered {s t : State} {o : StepOutcome} (h : step s = .next t)
    (ho : t.outcome = some o) (hne : o ≠ .ok) (n : Nat) :
    runFor (n + 1) s = .next (t, .delivered o) := by
  cases o <;> simp_all [runFor]

@[simp] theorem allStepsOk_zero (s : State) : AllStepsOk 0 s :=
  fun _ h => absurd h (Nat.not_lt_zero _)

/-- All of `k + 1` steps return `Ok` when the first does and the `k` after it do. -/
theorem allStepsOk_succ {s t : State} (h : step s = .next t) (k : Nat) :
    AllStepsOk (k + 1) s ↔ t.outcome = some .ok ∧ AllStepsOk k t := by
  constructor
  · intro a
    obtain ⟨u, hu, ho⟩ := a 0 (by omega)
    rw [stepN_succ h, stepN_zero] at hu
    cases hu
    refine ⟨ho, fun j hj => ?_⟩
    rw [← stepN_succ h]
    exact a (j + 1) (by omega)
  · rintro ⟨ho, a⟩ j hj
    rw [stepN_succ h]
    cases j with
    | zero => exact ⟨t, rfl, ho⟩
    | succ i => exact a i (by omega)

end Sys2Proof.Machine
end

