-- ==== Sys2Proof/Laws/Signals.lean ====
section
/-! SUPPORT. What a clock edge of the signal view can do, and what the signals show, one lemma each. -/

namespace Sys2Proof.Machine

/-- What the edge's host write does (R40). -/
theorem loadInPort_eq (inp : InputSignals) (s : State) :
    loadInPort inp s = { s with inPort := if inp.hostWrites then inp.inPort else s.inPort } := by
  unfold loadInPort
  split <;> rfl

@[simp] theorem loadInPort_prog (inp : InputSignals) (s : State) :
    (loadInPort inp s).prog = s.prog := by simp [loadInPort_eq]

@[simp] theorem loadInPort_pc (inp : InputSignals) (s : State) : (loadInPort inp s).pc = s.pc := by
  simp [loadInPort_eq]

/-- A reset clears `IN`, whether or not the host writes it at the same edge. -/
@[simp] theorem resetMachine_loadInPort (inp : InputSignals) (s : State) :
    resetMachine (loadInPort inp s) = resetMachine s := by simp [loadInPort_eq, resetMachine]

/-- The byte the store drives for `pc` is the byte a step fetches (R91). -/
@[simp] theorem romDataOf_pc (s : State) : romDataOf s.prog s.pc = currentByte s := rfl

/-- A host write of `IN` does not change the byte fetched. -/
@[simp] theorem currentByte_loadInPort (inp : InputSignals) (s : State) :
    currentByte (loadInPort inp s) = currentByte s := by simp [loadInPort_eq, currentByte]

/-- `rst` wins (R40). -/
theorem clockEdge_rst {inp : InputSignals} (h : inp.rst = true) (m : SignalModule) :
    clockEdge inp m =
      .next { engine := resetMachine m.engine, stepped := false, edges := m.edges + 1 } := by
  simp [clockEdge, h]

/-- An edge with `step_en` runs the instruction that stands on `rom_data` (R40). -/
theorem clockEdge_step {inp : InputSignals} (hr : inp.rst = false) (hs : inp.stepEn = true)
    {m : SignalModule} {t : State}
    (h : exec (decodeByte inp.romData) (loadInPort inp m.engine) = .next t) :
    clockEdge inp m = .next { engine := t, stepped := true, edges := m.edges + 1 } := by
  simp [clockEdge, afterStepEdge, hr, hs, h]

/-- An edge with neither leaves what the host's write leaves (R40). -/
theorem clockEdge_idle {inp : InputSignals} (hr : inp.rst = false) (hs : inp.stepEn = false)
    (m : SignalModule) : clockEdge inp m =
      .next { engine := loadInPort inp m.engine, stepped := false, edges := m.edges + 1 } := by
  simp [clockEdge, hr, hs]

/-- After an edge that performed a step, the outcome signal shows that step's outcome (R40). -/
theorem outcomeSignal_of_step {m : SignalModule} {o : StepOutcome} (hs : m.stepped = true)
    (ho : m.engine.outcome = some o) : outcomeSignal m = signalOfOutcome o := by
  simp [outcomeSignal, hs, ho]

/-- After any other edge it shows the free value (log entry 22). -/
theorem outcomeSignal_of_no_step {m : SignalModule} (hs : m.stepped = false) :
    outcomeSignal m = Config.outcomeWithoutStep m.edges := by
  unfold outcomeSignal
  split <;> simp_all

/-- The signal shows `Ok` exactly for the outcome `Ok`. -/
theorem signalOfOutcome_eq_ok (o : StepOutcome) : signalOfOutcome o = .ok ↔ o = .ok := by
  cases o <;> simp [signalOfOutcome]

end Sys2Proof.Machine
end

