-- ==== Sys2Proof/Tests/Slice0.lean ====
section
/-! SUPPORT. The model's own tests. Expected values come from spec/95_test_vectors.md (the vector's name
stands in the comment) or from the encoding tables; the witnesses at the end show that the hypotheses of
the statements can be met. -/

namespace Sys2Proof.Tests

open Sys2Proof.Machine

/-- A state in the order of spec/95_test_vectors.md, with one byte at `pc` and 0x00 elsewhere. -/
def st (byte : Byte) (a b inp out pc : Nibble) (c d : Bool) : State :=
  { a := a, b := b, pc := pc, c := c, d := d, inPort := inp, outPort := out,
    prog := Memory.poke [] pc.toNat byte, outcome := none }

/-- What a vector lists of a state, in the same order, with the outcome the step returned. -/
structure Shown where
  a : Nibble
  b : Nibble
  inPort : Nibble
  outPort : Nibble
  pc : Nibble
  c : Bool
  d : Bool
  outcome : Option StepOutcome
  deriving DecidableEq, Repr

/-- What a step leaves. -/
def after (r : StepResult) : Option Shown :=
  match r with
  | .next s => some ⟨s.a, s.b, s.inPort, s.outPort, s.pc, s.c, s.d, s.outcome⟩
  | .fault _ => none
  | .refused _ => none

/-! ### Well-formedness, decoding, encoding -/

/-- The one check: `addA 0` is the byte 0x00, whose term is `nop`. -/
theorem test_wellFormed_refuses_addA_zero : WellFormed (.addA 0) = false := by decide

theorem test_wellFormed_admits_addA_one : WellFormed (.addA 1) = true := by decide

/-- The empty stream is rejected by name. -/
theorem test_decode_rejects_empty : decode [] = .error .noByte := by rfl

/-- Words written out bit by bit from spec/30_encoding.md R71, R74, R75. -/
theorem test_decode_words :
    [0b00000001, 0b00010111, 0b00100000, 0b00111101, 0b01000000, 0b01010011, 0b01100011, 0b01111001,
      0b10000101, 0b10011000, 0b10100111, 0b10111111, 0b11001111, 0b11010000, 0b11100001, 0b11110111,
      0b00000000].map (decodeTableWord 8) =
    [some (.addA 1), some (.movAB 7), some (.inA 0), some (.movAImm 13), some (.movBA 0),
      some (.addB 3), some (.inB 3), some (.movBImm 9), some (.illegal1000 5), some (.outB 8),
      some (.illegal1010 7), some (.outImm 15), some (.illegal1100 15), some (.illegal1101 0),
      some (.jnc 1), some (.jmp 7), some .nop] := by decide

/-- The fixture bytes of V-S7, encoded. -/
theorem test_encode_fixture :
    ([.movBA 0, .outB 0, .movAB 1, .jnc 0, .jmp 4] : List Instr).map encode =
      [[0x40], [0x90], [0x11], [0xE0], [0xF4]] := by decide

/-! ### One-step vectors: the byte is fetched, and the step leaves the stated state -/

/-- V-A2. -/
theorem test_addA_wraps :
    currentByte (st 0x01 15 0 0 0 2 false false) = joinFields 0b0000 1 ∧
    after (step (st 0x01 15 0 0 0 2 false false)) =
      some ⟨0, 0, 0, 0, 3, true, false, some .ok⟩ := by decide

/-- V-A12. -/
theorem test_addA_keeps_stale_latch :
    currentByte (st 0x0F 0 0 0 0 0 false true) = joinFields 0b0000 15 ∧
    after (step (st 0x0F 0 0 0 0 0 false true)) =
      some ⟨15, 0, 0, 0, 1, false, true, some .ok⟩ := by decide

/-- V-A5. -/
theorem test_nop_clears_the_carry :
    currentByte (st 0x00 7 0 0 0 5 true false) = joinFields 0b0000 0 ∧
    after (step (st 0x00 7 0 0 0 5 true false)) =
      some ⟨7, 0, 0, 0, 6, false, true, some .ok⟩ := by decide

/-- V-A9. -/
theorem test_addB_carry :
    currentByte (st 0x54 9 12 0 0 4 false false) = joinFields 0b0101 4 ∧
    after (step (st 0x54 9 12 0 0 4 false false)) =
      some ⟨9, 0, 0, 0, 5, true, false, some .ok⟩ := by decide

/-- V-A11. -/
theorem test_addB_second_carry :
    currentByte (st 0x5F 0 1 0 0 0 true false) = joinFields 0b0101 15 ∧
    after (step (st 0x5F 0 1 0 0 0 true false)) =
      some ⟨0, 0, 0, 0, 1, true, true, some .ok⟩ := by decide

/-- V-M2. -/
theorem test_movAB_ignores_operand :
    currentByte (st 0x17 3 9 0 0 1 false false) = joinFields 0b0001 7 ∧
    after (step (st 0x17 3 9 0 0 1 false false)) =
      some ⟨9, 9, 0, 0, 2, false, false, some .ok⟩ := by decide

/-- V-M4. -/
theorem test_movAImm_arms_latch :
    currentByte (st 0x30 3 0 0 0 0 true false) = joinFields 0b0011 0 ∧
    after (step (st 0x30 3 0 0 0 0 true false)) =
      some ⟨0, 0, 0, 0, 1, true, true, some .ok⟩ := by decide

/-- V-M6. -/
theorem test_movBA_wraps_pc :
    currentByte (st 0x4F 12 1 0 0 15 false false) = joinFields 0b0100 15 ∧
    after (step (st 0x4F 12 1 0 0 15 false false)) =
      some ⟨12, 12, 0, 0, 0, false, false, some .ok⟩ := by decide

/-- V-M7. -/
theorem test_movBImm_clears_flag :
    currentByte (st 0x7C 0 1 0 0 0 true true) = joinFields 0b0111 12 ∧
    after (step (st 0x7C 0 1 0 0 0 true true)) =
      some ⟨0, 12, 0, 0, 1, false, false, some .ok⟩ := by decide

/-- V-I2. -/
theorem test_inA_ignores_operand :
    currentByte (st 0x2F 2 0 11 0 3 false false) = joinFields 0b0010 15 ∧
    after (step (st 0x2F 2 0 11 0 3 false false)) =
      some ⟨11, 0, 11, 0, 4, false, false, some .ok⟩ := by decide

/-- V-I4. -/
theorem test_inB_keeps_flag :
    currentByte (st 0x65 0 2 6 0 3 true false) = joinFields 0b0110 5 ∧
    after (step (st 0x65 0 2 6 0 3 true false)) =
      some ⟨0, 6, 6, 0, 4, true, true, some .ok⟩ := by decide

/-- V-I7. -/
theorem test_outB_carries :
    currentByte (st 0x96 0 10 0 3 7 false false) = joinFields 0b1001 6 ∧
    after (step (st 0x96 0 10 0 3 7 false false)) =
      some ⟨0, 10, 0, 0, 8, true, false, some .ok⟩ := by decide

/-- V-I9. -/
theorem test_outB_clears_flag :
    currentByte (st 0x90 0 4 0 0 0 true false) = joinFields 0b1001 0 ∧
    after (step (st 0x90 0 4 0 0 0 true false)) =
      some ⟨0, 4, 0, 4, 1, false, true, some .ok⟩ := by decide

/-- V-I11. -/
theorem test_outImm_keeps_flag :
    currentByte (st 0xB0 0 0 0 9 9 true false) = joinFields 0b1011 0 ∧
    after (step (st 0xB0 0 0 0 9 9 true false)) =
      some ⟨0, 0, 0, 0, 10, true, true, some .ok⟩ := by decide

/-- V-J7. -/
theorem test_jnc_fresh_carry_not_taken :
    currentByte (st 0xEF 0 0 0 0 15 true false) = joinFields 0b1110 15 ∧
    after (step (st 0xEF 0 0 0 0 15 true false)) =
      some ⟨0, 0, 0, 0, 0, true, true, some .ok⟩ := by decide

/-- V-J3. -/
theorem test_jnc_aged_carry_taken :
    currentByte (st 0xE9 0 0 0 0 2 true true) = joinFields 0b1110 9 ∧
    after (step (st 0xE9 0 0 0 0 2 true true)) =
      some ⟨0, 0, 0, 0, 9, false, false, some .ok⟩ := by decide

/-- V-J9. -/
theorem test_jmp_ages_the_flag :
    currentByte (st 0xF9 0 0 0 0 2 true false) = joinFields 0b1111 9 ∧
    after (step (st 0xF9 0 0 0 0 2 true false)) =
      some ⟨0, 0, 0, 0, 9, true, true, some .ok⟩ := by decide

/-- V-J10. -/
theorem test_jmp_to_itself_halts :
    currentByte (st 0xF9 5 6 8 7 9 true false) = joinFields 0b1111 9 ∧
    after (step (st 0xF9 5 6 8 7 9 true false)) =
      some ⟨5, 6, 8, 7, 9, true, false, some .halted⟩ := by decide

/-- V-X2b. -/
theorem test_illegal1000_ages_the_flag :
    currentByte (st 0x80 1 2 3 4 5 true true) = joinFields 0b1000 0 ∧
    after (step (st 0x80 1 2 3 4 5 true true)) =
      some ⟨1, 2, 3, 4, 5, false, false, some (.invalidOpcode 8)⟩ := by decide

/-- V-X3a. -/
theorem test_illegal1010_payload :
    currentByte (st 0xA7 0 0 0 0 1 false false) = joinFields 0b1010 7 ∧
    after (step (st 0xA7 0 0 0 0 1 false false)) =
      some ⟨0, 0, 0, 0, 1, false, false, some (.invalidOpcode 10)⟩ := by decide

/-- V-X3b. -/
theorem test_illegal1100_keeps_pc :
    currentByte (st 0xCF 0 0 0 0 15 false false) = joinFields 0b1100 15 ∧
    after (step (st 0xCF 0 0 0 0 15 false false)) =
      some ⟨0, 0, 0, 0, 15, false, false, some (.invalidOpcode 12)⟩ := by decide

/-- V-X3c. -/
theorem test_illegal1101_arms_latch :
    currentByte (st 0xD0 0 0 0 0 0 true false) = joinFields 0b1101 0 ∧
    after (step (st 0xD0 0 0 0 0 0 true false)) =
      some ⟨0, 0, 0, 0, 0, true, true, some (.invalidOpcode 13)⟩ := by decide

/-- `withFetchWord` places the instruction where the step fetches it, from reset. -/
theorem test_withFetchWord_runs_first :
    after (step (State.reset.withFetchWord 8 0x3D)) = some ⟨13, 0, 0, 0, 1, false, false, some .ok⟩ := by
  decide

/-! ### The host's surface, the loader, the Disassembler -/

/-- V-R1. -/
theorem test_reset_clears_all_but_program :
    resetMachine (st 0x12 9 3 12 7 6 true true) =
      { State.reset with prog := (st 0x12 9 3 12 7 6 true true).prog } := by decide

/-- V-R6: a debug write of `C` leaves the stale latch, so a `jnc` stepped next is taken. -/
theorem test_debugWriteC_leaves_latch :
    after (step (debugWriteC true (st 0xE9 0 0 0 0 0 false true))) =
      some ⟨0, 0, 0, 0, 9, false, false, some .ok⟩ := by decide

/-- V-S8: the fixture reads back, padded. -/
theorem test_loaded_image_reads_back :
    (loadImage [0x40, 0x90, 0x11, 0xE0, 0xF4]).map Memory.dump =
      .ok [0x40, 0x90, 0x11, 0xE0, 0xF4, 0, 0, 0, 0, 0, 0, 0, 0, 0, 0, 0] := by rfl

/-- V-S8: 17 bytes are refused. -/
theorem test_loader_refuses_seventeen_bytes :
    loadImage (List.replicate 17 0x01) = .error .romOverflow := by rfl

/-- V-D1, V-D2, V-D3, V-D5, V-D10, V-D13, V-D15. -/
theorem test_disassemble_samples :
    ([0x00, 0x0A, 0x13, 0x30, 0x98, 0xF4, 0xDF] : List Byte).map disassemble =
      ["nop", "add a, 10", "mov a, b+3", "mov a, 0", "out b+8", "jmp 4", "nop+15"] := by decide

/-- The parameter of D7 at its other value prints every byte of opcode 0000 as `nop`. -/
theorem test_disassemble_opcode0_parameter :
    disassembleWith true 0x0A = "nop" ∧ disassembleWith true 0x1A = "mov a, b+10" := by decide

/-- The parameter of D15 at its other value disarms the latch on an add. -/
theorem test_carryOfAdd_parameter :
    carryOfAdd true true ⟨true, true⟩ = ⟨true, false⟩ ∧
      carryOfAdd false true ⟨true, true⟩ = ⟨true, true⟩ := by decide

/-! ### Witnesses: the hypotheses of the statements can be met -/

/-- CanonicalStoresAreExtensional, ActionsKeepTheStoreCanonical: a canonical store, with entries at both
ends of the address space. -/
theorem witness_store_canonical : Memory.wf [(0, 0x01), (15, 0xFF)] = true := by decide

/-- DecodeUndoesEncode and EveryByteEncodesOneInstruction: a well-formed instruction with its byte. -/
theorem witness_decodeUndoesEncode :
    WellFormed (.addA 15) = true ∧ encode (.addA 15) = [0x0F] := by decide

/-- OpcodeMapDecodes, JmpResult and AdderLaws: operands at the ends of their ranges. -/
theorem witness_nonzero_operands : (1 : Nibble) ≠ 0 ∧ (15 : Nibble) ≠ 0 := by decide

/-- LatchUpdateAlternatives: one state for each alternative. -/
theorem witness_latchUpdateAlternatives :
    (latchUpdate (st 0 0 0 0 0 0 true true)).c = false ∧
    (latchUpdate (st 0 0 0 0 0 0 true false)).d = true ∧
    (latchUpdate (st 0 0 0 0 0 0 false true)).d = true := by decide

/-- A state at the halt idiom (address 15), with the step that stays there. -/
theorem witness_atHalt :
    AtHalt (st 0xFF 9 0 0 0 15 true true) ∧
    step (st 0xFF 9 0 0 0 15 true true) =
      .next { st 0xFF 9 0 0 0 15 true true with outcome := some .halted } :=
  ⟨by unfold AtHalt; decide, by rfl⟩

/-- A state at each end of the illegal opcodes, with the carry pair `(1, 0)`. -/
theorem witness_atIllegal :
    AtIllegal 8 (st 0x80 0 0 0 0 2 true false) ∧ AtIllegal 13 (st 0xDF 0 0 0 0 15 true false) :=
  ⟨⟨by decide, by decide⟩, ⟨by decide, by decide⟩⟩

/-- OutcomeCensus, ProgramCounterRule: a state that is at neither, and an add with its carry. -/
theorem witness_neither_halt_nor_illegal :
    ¬ AtHalt (st 0x01 15 0 0 0 15 false false) ∧
    (∀ op : Nibble, ¬ AtIllegal op (st 0x01 15 0 0 0 15 false false)) ∧
    carryWritten (st 0x01 15 0 0 0 15 false false) = some true :=
  ⟨by unfold AtHalt; decide, by unfold AtIllegal; decide, by decide⟩

/-- ImmediateOverflowUnreachable, StateLeftByEachOutcome, ProgramCounterRule: a next state exists for
each outcome (see also `witness_atHalt`). -/
theorem witness_step_answers :
    after (step (st 0xF1 0 0 0 0 2 true false)) = some ⟨0, 0, 0, 0, 1, true, true, some .ok⟩ ∧
    after (step (st 0x8F 0 0 0 0 2 false false)) =
      some ⟨0, 0, 0, 0, 2, false, false, some (.invalidOpcode 8)⟩ := by decide

/-- InstructionWritesOnlyItsDestination: an instruction that writes none of the three. -/
theorem witness_writes_nothing :
    writesA (.jnc 3) = false ∧ writesB (.jnc 3) = false ∧ writesOut (.jnc 3) = false := by decide

/-- JncSelfLoopNeverHalts: `jnc 3` at 3, with the flag clear and set after the latch update. -/
theorem witness_jncSelfLoop :
    currentByte (st 0xE3 0 0 0 0 3 true true) = joinFields 0b1110 3 ∧
    agedFlag (st 0xE3 0 0 0 0 3 true true) = false ∧
    agedFlag (st 0xE3 0 0 0 0 3 true false) = true := by decide

/-- JncSelfLoopIsNeverLeft (V-J5). -/
theorem witness_inJncSelfLoop :
    InJncSelfLoop (st 0xE3 0 0 0 0 3 false false) ∧
    after (step (st 0xE3 0 0 0 0 3 false false)) = some ⟨0, 0, 0, 0, 3, false, false, some .ok⟩ :=
  ⟨⟨by decide, by decide⟩, by decide⟩

/-- CarryPairTable: the three columns of the table, in any of its four rows (R28). -/
theorem witness_carryPairTable :
    ∀ c d : Bool,
      carryWritten (st 0x40 15 0 0 0 0 c d) = none ∧
      carryWritten (st 0x00 15 0 0 0 0 c d) = some false ∧
      carryWritten (st 0x01 15 0 0 0 0 c d) = some true ∧
      (after (step (st 0x40 15 0 0 0 0 c d))).map (·.outcome) = some (some .ok) ∧
      (after (step (st 0x00 15 0 0 0 0 c d))).map (·.outcome) = some (some .ok) ∧
      (after (step (st 0x01 15 0 0 0 0 c d))).map (·.outcome) = some (some .ok) := by decide

/-- The first step of V-S3's carry: `add a, 1` at 15, then two `mov b, a`. -/
def carryStart : State :=
  { st 0x01 15 0 0 0 1 false false with prog := [(1, 0x01), (2, 0x40), (3, 0x40)] }

/-- CarryVisibleForOneStep: four states in a row that meet all its conditions (V-S3). -/
theorem witness_carryVisible :
    ∃ s₀ s₁ s₂ s₃ : State,
      step s₀ = .next s₁ ∧ step s₁ = .next s₂ ∧ step s₂ = .next s₃ ∧
      carryWritten s₀ = some true ∧ agedLatch s₀ = false ∧
      carryWritten s₁ ≠ some true ∧ carryWritten s₂ ≠ some true ∧
      s₂.outcome ≠ some .halted ∧ s₃.outcome ≠ some .halted :=
  ⟨carryStart, { carryStart with a := 0, pc := 2, c := true, outcome := some .ok },
    { carryStart with a := 0, pc := 3, c := true, d := true, outcome := some .ok },
    { carryStart with a := 0, pc := 4, outcome := some .ok },
    by rfl, by rfl, by rfl, by decide, by decide, by decide, by decide, by decide, by decide⟩

/-- StaleLatchSwallowsTheNextCarry and SecondOfTwoCarriesIsLost: the clauses' states, and a `jnc`
after the last carry (P3, V-C5). -/
theorem witness_staleLatch :
    carryWritten (st 0x01 0 0 0 0 2 true false) = some false ∧
    carryWritten (st 0x40 0 0 0 0 2 false true) = none ∧
    carryWritten (st 0x0F 1 0 0 0 3 false true) = some true ∧
    carryWritten (st 0x0F 14 0 0 0 2 true false) = some true ∧
    after (stepN 2 { st 0x0F 1 0 0 0 3 false true with prog := [(3, 0x0F), (4, 0xE6)] }) =
      some ⟨0, 0, 0, 0, 6, false, false, some .ok⟩ := by decide

/-- AddressMap: the clauses where they meet. -/
theorem witness_addressMap :
    Memory.read [(15, 0xFF)] 15 = .ok 0xFF ∧ Memory.read [(15, 0xFF)] 16 = .error (.noSuchAddress 16) :=
  ⟨by rfl, by rfl⟩

/-- EditIsSeenByTheNextFetch: an edit under `pc`, back to the padding byte, at address 15. -/
theorem witness_edit :
    Memory.wf (st 0x3D 0 0 0 0 15 false false).prog = true ∧
    (editProgram 15 0x00 (st 0x3D 0 0 0 0 15 false false)).prog = [] := by decide

/-- LoadedImageReadsBack: images of 16 and of 17 bytes. -/
theorem witness_images :
    (List.replicate 16 (0x01 : Byte)).length ≤ 16 ∧ 16 < (List.replicate 17 (0x01 : Byte)).length := by
  decide

/-- RunIsIteratedStep: a run stopped after one step, which returned `Ok`. -/
theorem witness_stopped_run :
    AllStepsOk 1 (st 0xE3 0 0 0 0 3 false false) ∧
    stepN 1 (st 0xE3 0 0 0 0 3 false false) =
      .next { st 0xE3 0 0 0 0 3 false false with outcome := some .ok } ∧
    runFor 1 (st 0xE3 0 0 0 0 3 false false) =
      .next ({ st 0xE3 0 0 0 0 3 false false with outcome := some .ok }, .stopped) :=
  ⟨fun j h => by obtain rfl : j = 0 := (by omega); exact ⟨_, rfl, rfl⟩, by rfl, by rfl⟩

/-- `jmp 4` at 2, the halt idiom at 4. -/
def haltsAfterOneOk : State :=
  { st 0xF4 0 0 0 0 2 false false with prog := [(2, 0xF4), (4, 0xF4)] }

/-- RunDeliversItsFirstFailure: a run that delivers `Halted` after one `Ok` step, in both directions, with
the failing step the last one the bound allows. -/
theorem witness_delivered_run :
    AllStepsOk 1 haltsAfterOneOk ∧
    stepN 1 haltsAfterOneOk = .next { haltsAfterOneOk with pc := 4, outcome := some .ok } ∧
    step { haltsAfterOneOk with pc := 4, outcome := some .ok } =
      .next { haltsAfterOneOk with pc := 4, outcome := some .halted } ∧
    runFor 2 haltsAfterOneOk =
      .next ({ haltsAfterOneOk with pc := 4, outcome := some .halted }, .delivered .halted) :=
  ⟨fun j h => by obtain rfl : j = 0 := (by omega); exact ⟨_, rfl, rfl⟩, by rfl, by rfl, by rfl⟩

/-- An edge with `in a` (0x21) on `rom_data` and 9 on `in_port`. -/
def edgeIn (rst stepEn hostWrites : Bool) : InputSignals :=
  { rst := rst, stepEn := stepEn, romData := 0x21, inPort := 9, hostWrites := hostWrites }

/-- `in a` (0x21) at 15. -/
def inAtFifteen : SignalModule :=
  { engine := st 0x21 4 0 2 0 15 false false, stepped := false, edges := 0 }

/-- ClockEdgeView: the store drives the byte the edge reads; the step reads the `IN` written at its edge;
`rst` wins over both; with neither only `IN` changes. -/
theorem witness_clockEdge :
    (edgeIn false true true).romData =
      romDataOf inAtFifteen.engine.prog (outputSignals inAtFifteen).romAddr ∧
    clockEdge (edgeIn false true true) inAtFifteen =
      .next { engine := { inAtFifteen.engine with a := 9, inPort := 9, pc := 0, outcome := some .ok },
              stepped := true, edges := 1 } ∧
    clockEdge (edgeIn true true true) inAtFifteen =
      .next { engine := { State.reset with prog := [(15, 0x21)] }, stepped := false, edges := 1 } ∧
    clockEdge (edgeIn false false true) inAtFifteen =
      .next { engine := { inAtFifteen.engine with inPort := 9 }, stepped := false, edges := 1 } :=
  ⟨by rfl, by rfl, by rfl, by rfl⟩

/-- The outcome signal has the four values without their payloads. -/
theorem test_outcomeSignal :
    outcomeSignal { engine := { State.reset with outcome := some (.invalidOpcode 13) }, stepped := true,
                    edges := 1 } = .invalidOpcode := by rfl

/-- RunHoldsStepEn: a run that is active, and one that was asked to stop and steps no more. -/
theorem witness_runHoldsStepEn :
    runStepEn (.active false) false = (edgeIn false true false).stepEn ∧
    runStepEn (.active true) false = (edgeIn false false false).stepEn ∧
    (edgeIn false true false).romData =
      romDataOf inAtFifteen.engine.prog (outputSignals inAtFifteen).romAddr := by decide

/-- StopRules, NoEditOrOverlapDuringARun, ActiveRunHasDeliveredNothing, ActionsKeepTheStoreCanonical: an
active run, asked to stop once and again, that exits. -/
theorem witness_console :
    act .startRun Console.reset = .done { Console.reset with phase := .active false } ∧
    act .stop { Console.reset with phase := .active false } =
      .done { Console.reset with phase := .active true } ∧
    act .stop { Console.reset with phase := .active true } =
      .done { Console.reset with phase := .active true } ∧
    act .runExit { Console.reset with phase := .active true } = .done Console.reset := by decide

/-- ActiveRunStepsUntilItFails: a run goes on after `Ok`, and ends at the halt idiom. -/
theorem witness_runStep :
    act .runStep { engine := State.reset, phase := .active false, delivered := none } =
      .done { engine := { State.reset with pc := 1, outcome := some .ok }, phase := .active false,
              delivered := none } ∧
    act .runStep { engine := st 0xF0 0 0 0 0 0 false false, phase := .active true, delivered := none } =
      .done { engine := { st 0xF0 0 0 0 0 0 false false with outcome := some .halted }, phase := .idle,
              delivered := some .halted } := by decide

/-- StepKeepsInvariant: a state with the invariant, whose recorded outcome it constrains. -/
theorem witness_invariant :
    Inv { st 0xF4 0 0 0 0 4 true false with outcome := some .halted } :=
  ⟨by decide, fun _ => by unfold AtHalt; decide, by simp, by simp⟩

/-- DisassemblyDeterminesLegalBytes: legal opcodes at both ends. -/
theorem witness_legal_bytes :
    isIllegalOpcode (opcodeField 0x00) = false ∧ isIllegalOpcode (opcodeField 0xFF) = false := by decide

end Sys2Proof.Tests
end

/-! The adder `add4` (spec/40_step_cycle.md R96) read as arithmetic on natural numbers. -/
namespace Sys2Proof.Proofs

open Sys2Proof.Machine

@[simp] theorem add4_sum_toNat (x y : Nibble) :
    (add4 x y).sum.toNat = (x.toNat + y.toNat) % 16 :=
  BitVec.toNat_ofNat (x.toNat + y.toNat) 4

@[simp] theorem add4_carry (x y : Nibble) :
    (add4 x y).carry = decide (15 < x.toNat + y.toNat) := rfl

/-- Two nibbles sum to at most 30, so the carry is the whole quotient by 16. -/
theorem add4_carry_toNat (x y : Nibble) :
    (add4 x y).carry.toNat = (x.toNat + y.toNat) / 16 := by
  have hx : x.toNat < 16 := x.isLt
  have hy : y.toNat < 16 := y.isLt
  rw [add4_carry]
  by_cases hcarry : 15 < x.toNat + y.toNat
  · rw [decide_eq_true hcarry, Bool.toNat_true]
    omega
  · rw [decide_eq_false hcarry, Bool.toNat_false]
    omega

/-- No bit of the integer sum is lost: the adder's two outputs are its remainder and quotient by 16. -/
theorem add4_sum_add_carry (x y : Nibble) :
    (add4 x y).sum.toNat + 16 * (add4 x y).carry.toNat = x.toNat + y.toNat := by
  rw [add4_sum_toNat, add4_carry_toNat]
  exact Nat.mod_add_div (x.toNat + y.toNat) 16

/-- Settles O7: the sum is the remainder mod 16, the carry says that 15 is passed, and together they
are the integer sum. -/
theorem adderSumAndCarry : Obligations.AdderSumAndCarry := by
  intro x y
  have hcarry : (add4 x y).carry = true ↔ 15 < x.toNat + y.toNat := by
    rw [add4_carry, decide_eq_true_iff]
  exact ⟨add4_sum_toNat x y, hcarry, add4_sum_add_carry x y⟩

end Sys2Proof.Proofs

/-! What one instruction can do, said once (spec/40_step_cycle.md R97): the five shapes of a next state,
and what each shape keeps. -/
namespace Sys2Proof.Proofs

open Sys2Proof.Machine

/-- Whether an instruction has the given destination (spec/10_state.md R20). -/
def writesTo (i : Instr) (dst : Dest) : Bool :=
  match dst with
  | .regA => writesA i
  | .regB => writesB i
  | .portOut => writesOut i

/-- The value a destination holds. -/
def destValue (dst : Dest) (s : State) : Nibble :=
  match dst with
  | .regA => s.a
  | .regB => s.b
  | .portOut => s.outPort

theorem destValue_writeDest_of_ne {dst dst' : Dest} (h : dst' ≠ dst) (v : Nibble) (s : State) :
    destValue dst' (writeDest dst v s) = destValue dst' s := by
  cases dst with
  | regA => cases dst' with
    | regA => exact absurd rfl h
    | regB | portOut => rfl
  | regB => cases dst' with
    | regB => exact absurd rfl h
    | regA | portOut => rfl
  | portOut => cases dst' with
    | portOut => exact absurd rfl h
    | regA | regB => rfl

/-- What an instruction's dispatch writes to `C`, `none` where it does not add. -/
def carryOfInstr (i : Instr) (s : State) : Option Bool :=
  (addendsOf i s).map fun p => decide (15 < p.1.toNat + p.2.toNat)

theorem carryWritten_eq (s : State) :
    carryWritten s = carryOfInstr (decodeByte (currentByte s)) s := by
  unfold carryWritten carryOfInstr
  cases addendsOf (decodeByte (currentByte s)) s <;> rfl

/-- The next states an instruction can leave: after the latch update it adds, moves, places `pc` or
reports an illegal opcode; or it halts, and then the latch update is not done. -/
inductive InstrEffect (i : Instr) (s : State) : State → Prop
  | adds (dst : Dest) (src : Source) (imm : Nibble)
      (hadds : addendsOf i s = some (readSource src s, imm)) (hdst : writesTo i dst = true) :
      InstrEffect i s
        { writeDest dst (add4 (readSource src s) imm).sum (latchUpdate s) with
          c := (add4 (readSource src s) imm).carry, pc := s.pc + 1, outcome := some .ok }
  | moves (dst : Dest) (src : Source)
      (hadds : addendsOf i s = none) (hdst : writesTo i dst = true) :
      InstrEffect i s
        { writeDest dst (readSource src s) (latchUpdate s) with
          pc := s.pc + 1, outcome := some .ok }
  | jumps (target : Nibble) (hadds : addendsOf i s = none) :
      InstrEffect i s { latchUpdate s with pc := target, outcome := some .ok }
  | illegal (op : Nibble) (hadds : addendsOf i s = none) :
      InstrEffect i s { latchUpdate s with outcome := some (.invalidOpcode op) }
  | halts (hadds : addendsOf i s = none) :
      InstrEffect i s { s with outcome := some .halted }

/-- `jnc` tests the flag as the latch update left it (spec/44_jump.md R140). -/
theorem exec_jnc (imm : Nibble) (s : State) :
    exec (.jnc imm) s = .next { latchUpdate s with
      pc := if agedFlag s then s.pc + 1 else imm, outcome := some .ok } := by
  have heffect : exec (.jnc imm) s =
      if (latchUpdate s).c then advance (latchUpdate s) else jumpTo imm (latchUpdate s) :=
    dispatchWith_eq imm (fun t => if t.c then advance t else jumpTo imm t) s
  rw [heffect, latchUpdate_c]
  cases agedFlag s <;> rfl

/-- Every instruction answers a next state, in one of the five shapes. -/
theorem exec_effect (i : Instr) (s : State) : ∃ t : State, exec i s = .next t ∧ InstrEffect i s t := by
  cases i with
  | addA imm => exact ⟨_, dispatchWith_eq imm _ s, .adds .regA .regA imm rfl rfl⟩
  | nop => exact ⟨_, dispatchWith_eq 0 (addTransfer .regA .regA 0) s, .adds .regA .regA 0 rfl rfl⟩
  | addB imm => exact ⟨_, dispatchWith_eq imm _ s, .adds .regB .regB imm rfl rfl⟩
  | outB imm => exact ⟨_, dispatchWith_eq imm _ s, .adds .portOut .regB imm rfl rfl⟩
  | movAB imm => exact ⟨_, dispatchWith_eq imm _ s, .moves .regA .regB rfl rfl⟩
  | inA imm => exact ⟨_, dispatchWith_eq imm _ s, .moves .regA .portIn rfl rfl⟩
  | movAImm imm => exact ⟨_, dispatchWith_eq imm _ s, .moves .regA (.imm imm) rfl rfl⟩
  | movBA imm => exact ⟨_, dispatchWith_eq imm _ s, .moves .regB .regA rfl rfl⟩
  | inB imm => exact ⟨_, dispatchWith_eq imm _ s, .moves .regB .portIn rfl rfl⟩
  | movBImm imm => exact ⟨_, dispatchWith_eq imm _ s, .moves .regB (.imm imm) rfl rfl⟩
  | outImm imm => exact ⟨_, dispatchWith_eq imm _ s, .moves .portOut (.imm imm) rfl rfl⟩
  | jnc imm => exact ⟨_, exec_jnc imm s, .jumps _ rfl⟩
  | jmp imm =>
    by_cases hself : imm = s.pc
    · exact ⟨_, if_pos hself, .halts rfl⟩
    · exact ⟨_, (if_neg hself).trans (dispatchWith_eq imm _ s), .jumps imm rfl⟩
  | illegal1000 imm => exact ⟨_, dispatchWith_eq imm _ s, .illegal 0b1000 rfl⟩
  | illegal1010 imm => exact ⟨_, dispatchWith_eq imm _ s, .illegal 0b1010 rfl⟩
  | illegal1100 imm => exact ⟨_, dispatchWith_eq imm _ s, .illegal 0b1100 rfl⟩
  | illegal1101 imm => exact ⟨_, dispatchWith_eq imm _ s, .illegal 0b1101 rfl⟩

section
variable {i : Instr} {s t : State}

/-- No instruction writes the program store (spec/20_memory.md R53). -/
theorem InstrEffect.prog_eq (h : InstrEffect i s t) : t.prog = s.prog := by
  cases h <;> simp

/-- No instruction writes `IN` (spec/10_state.md R30). -/
theorem InstrEffect.inPort_eq (h : InstrEffect i s t) : t.inPort = s.inPort := by
  cases h <;> simp

/-- Every step returns an outcome (spec/60_exceptions.md R170). -/
theorem InstrEffect.exists_outcome (h : InstrEffect i s t) : ∃ o, t.outcome = some o := by
  cases h <;> exact ⟨_, rfl⟩

/-- A register or `OUT` that is not the instruction's destination keeps its value. -/
theorem InstrEffect.destValue_eq (h : InstrEffect i s t) {dst' : Dest}
    (hkept : writesTo i dst' = false) : destValue dst' t = destValue dst' s := by
  have hne {dst : Dest} (hdst : writesTo i dst = true) : dst' ≠ dst := by
    rintro rfl
    exact Bool.false_ne_true (hkept.symm.trans hdst)
  cases h with
  | adds dst src imm _ hdst =>
    have hframe := destValue_writeDest_of_ne (hne hdst) (add4 (readSource src s) imm).sum (latchUpdate s)
    cases dst' <;> exact hframe
  | moves dst src _ hdst =>
    have hframe := destValue_writeDest_of_ne (hne hdst) (readSource src s) (latchUpdate s)
    cases dst' <;> exact hframe
  | jumps | illegal | halts => cases dst' <;> rfl

/-- A step that reaches dispatch leaves in `C` the carry written, or the aged flag where none is, and
in `D` the aged latch (spec/10_state.md R26, R27). -/
theorem InstrEffect.carryPair_eq (h : InstrEffect i s t) (hrun : t.outcome ≠ some .halted) :
    t.c = (carryOfInstr i s).getD (agedFlag s) ∧ t.d = agedLatch s := by
  cases h with
  | adds _ _ _ hadds => simp [carryOfInstr, hadds]
  | moves _ _ hadds | jumps _ hadds | illegal _ hadds => simp [carryOfInstr, hadds]
  | halts => exact absurd rfl hrun

/-- Halting keeps the carry pair, and no adding instruction halts. -/
theorem InstrEffect.of_halted (h : InstrEffect i s t) (hhalt : t.outcome = some .halted) :
    t.c = s.c ∧ t.d = s.d ∧ carryOfInstr i s = none := by
  cases h with
  | halts hadds => simp [carryOfInstr, hadds]
  | adds | moves | jumps | illegal => simp at hhalt

end

/-- Settles O12: the frame of the five shapes, read at each of the three destinations. -/
theorem instructionWritesOnlyItsDestination : Obligations.InstructionWritesOnlyItsDestination := by
  intro i s
  obtain ⟨t, hexec, heffect⟩ := exec_effect i s
  refine ⟨t, hexec, heffect.destValue_eq (dst' := .regA), heffect.destValue_eq (dst' := .regB),
    heffect.destValue_eq (dst' := .portOut), heffect.inPort_eq, fun addr => ?_⟩
  rw [heffect.prog_eq]

end Sys2Proof.Proofs

/-! The same facts of a step, which fetches and decodes its instruction (spec/40_step_cycle.md R90). -/
namespace Sys2Proof.Proofs

open Sys2Proof.Machine

/-- A step runs the instruction that stands at `pc`. -/
theorem step_eq_exec (s : State) : step s = exec (decodeByte (currentByte s)) s := by
  simp [step]

theorem step_effect {s t : State} (h : step s = .next t) :
    InstrEffect (decodeByte (currentByte s)) s t := by
  obtain ⟨u, hexec, heffect⟩ := exec_effect (decodeByte (currentByte s)) s
  rw [step_eq_exec, hexec] at h
  cases h
  exact heffect

/-- A step always answers a next state, with an outcome. -/
theorem step_completes (s : State) : ∃ (t : State) (o : StepOutcome),
    step s = .next t ∧ t.outcome = some o := by
  obtain ⟨t, hexec, heffect⟩ := exec_effect (decodeByte (currentByte s)) s
  obtain ⟨o, ho⟩ := heffect.exists_outcome
  exact ⟨t, o, (step_eq_exec s).trans hexec, ho⟩

/-- No step writes the program store. -/
theorem step_prog {s t : State} (h : step s = .next t) : t.prog = s.prog :=
  (step_effect h).prog_eq

/-- How a step that reaches dispatch moves the pair `(C, D)` (spec/10_state.md R28). -/
theorem step_carryPair {s t : State} (h : step s = .next t) (hrun : t.outcome ≠ some .halted) :
    t.c = (carryWritten s).getD (agedFlag s) ∧ t.d = agedLatch s := by
  rw [carryWritten_eq]
  exact (step_effect h).carryPair_eq hrun

/-- An adding instruction always reaches dispatch. -/
theorem not_halted_of_carryWritten {s t : State} (h : step s = .next t) {w : Bool}
    (hw : carryWritten s = some w) : t.outcome ≠ some .halted := by
  intro hhalt
  obtain ⟨-, -, hnone⟩ := (step_effect h).of_halted hhalt
  rw [carryWritten_eq, hnone] at hw
  cases hw

/-- A step whose instruction adds leaves its carry in `C` and the aged latch in `D`. -/
theorem step_carryPair_of_add {s t : State} (h : step s = .next t) {w : Bool}
    (hw : carryWritten s = some w) : t.c = w ∧ t.d = agedLatch s := by
  obtain ⟨hc, hd⟩ := step_carryPair h (not_halted_of_carryWritten h hw)
  rw [hw] at hc
  exact ⟨hc, hd⟩

/-! The latch update by the pair it finds (spec/40_step_cycle.md R95). -/

theorem agedFlag_of_flag_clear {s : State} (hc : s.c = false) : agedFlag s = false := by
  simp [agedFlag, hc]

theorem agedFlag_of_latch_set {s : State} (hd : s.d = true) : agedFlag s = false := by
  simp [agedFlag, hd]

theorem agedFlag_of_fresh {s : State} (hc : s.c = true) (hd : s.d = false) : agedFlag s = true := by
  simp [agedFlag, hc, hd]

theorem agedLatch_of_flag_clear {s : State} (hc : s.c = false) : agedLatch s = s.d := by
  simp [agedLatch, hc]

theorem agedLatch_of_flag_set {s : State} (hc : s.c = true) : agedLatch s = !s.d := by
  simp [agedLatch, hc]

/-- Settles O6: the aged pair, computed in each alternative. -/
theorem latchUpdateAlternatives : Obligations.LatchUpdateAlternatives := by
  intro s
  refine ⟨fun hc hd => ?_, fun hc hd => ?_, fun hc => ?_⟩
  · rw [latchUpdate_eq, agedFlag_of_latch_set hd, agedLatch_of_flag_set hc, hd]
    rfl
  · rw [latchUpdate_eq, agedFlag_of_fresh hc hd, agedLatch_of_flag_set hc, hd]
    simp [hc]
  · rw [latchUpdate_eq, agedFlag_of_flag_clear hc, agedLatch_of_flag_clear hc, ← hc]

/-- A `jnc` that is fetched goes on if the flag survives the latch update, and jumps otherwise. -/
theorem step_jnc {s : State} {imm : Nibble} (hbyte : currentByte s = joinFields 0b1110 imm) :
    step s = .next { latchUpdate s with
      pc := if agedFlag s then s.pc + 1 else imm, outcome := some .ok } := by
  have hdecode : decodeByte (currentByte s) = .jnc imm := by
    rw [hbyte]
    exact Laws.RoundTrip.jnc imm rfl
  rw [step_eq_exec, hdecode, exec_jnc]

/-- A carry that stands over a set latch is not seen: the `jnc` after it jumps, and the pair is clear. -/
theorem step_jnc_of_latch_set {s : State} (hc : s.c = true) (hd : s.d = true) {imm : Nibble}
    (hbyte : currentByte s = joinFields 0b1110 imm) :
    step s = .next { s with c := false, d := false, pc := imm, outcome := some .ok } := by
  rw [step_jnc hbyte, latchUpdate_eq, agedFlag_of_latch_set hd, agedLatch_of_flag_set hc, hd]
  rfl

end Sys2Proof.Proofs

/-! The carry over several steps (spec/10_state.md R28, R29; spec/70_reset_and_hazards.md R213, R214). -/
namespace Sys2Proof.Proofs

open Sys2Proof.Machine

/-- Settles O34: the table is the pair of `step_carryPair`, computed in each cell. -/
theorem carryPairTable : Obligations.CarryPairTable := by
  intro s t hstep hrun
  obtain ⟨hc, hd⟩ := step_carryPair hstep hrun
  rw [hc, hd]
  unfold agedFlag agedLatch
  cases s.c <;> cases s.d <;> rcases carryWritten s with _ | _ | _ <;> rfl

/-! What stands in `C` after a dispatch that produces no carry. -/

theorem getD_false_of_no_carry {w : Option Bool} (h : w ≠ some true) : w.getD false = false := by
  rcases w with _ | _ | _
  · rfl
  · rfl
  · exact absurd rfl h

theorem getD_true_iff_keeps {w : Option Bool} (h : w ≠ some true) :
    w.getD true = true ↔ w = none := by
  rcases w with _ | _ | _
  · simp
  · simp
  · exact absurd rfl h

/-- Settles O35: the carry is fresh after the add, stands over a set latch one step later, and is
cleared by the latch update of the step after that. -/
theorem carryVisibleForOneStep : Obligations.CarryVisibleForOneStep := by
  intro s₀ s₁ s₂ s₃ h₀ h₁ h₂ hcarry hlatch hno₁ hno₂ hrun₂ hrun₃
  obtain ⟨hc₁, hd₁⟩ := step_carryPair_of_add h₀ hcarry
  rw [hlatch] at hd₁
  have hseen : agedFlag s₁ = true := agedFlag_of_fresh hc₁ hd₁
  obtain ⟨hc₂, hd₂⟩ := step_carryPair h₁ hrun₂
  rw [hseen] at hc₂
  have hhost : s₂.c = true ↔ carryWritten s₁ = none := by
    rw [hc₂]
    exact getD_true_iff_keeps hno₁
  rw [agedLatch_of_flag_set hc₁, hd₁] at hd₂
  have hgone : agedFlag s₂ = false := agedFlag_of_latch_set hd₂
  obtain ⟨hc₃, -⟩ := step_carryPair h₂ hrun₃
  rw [hgone] at hc₃
  exact ⟨hc₁, hseen, hhost, hgone, hc₃.trans (getD_false_of_no_carry hno₂)⟩

/-- A stale latch, once there, stays through every step that produces no carry, a halt included. -/
theorem step_keeps_stale_latch {s t : State} (hstep : step s = .next t) (hc : s.c = false)
    (hd : s.d = true) (hno : carryWritten s ≠ some true) : t.c = false ∧ t.d = true := by
  by_cases hhalt : t.outcome = some .halted
  · obtain ⟨htc, htd, -⟩ := (step_effect hstep).of_halted hhalt
    exact ⟨htc.trans hc, htd.trans hd⟩
  · obtain ⟨htc, htd⟩ := step_carryPair hstep hhalt
    rw [agedFlag_of_flag_clear hc] at htc
    rw [agedLatch_of_flag_clear hc] at htd
    exact ⟨htc.trans (getD_false_of_no_carry hno), htd.trans hd⟩

/-- Settles O36: an add right after a fresh carry arms the latch, nothing but a carry changes the stale
pair, and that carry stands over the set latch. -/
theorem staleLatchSwallowsTheNextCarry : Obligations.StaleLatchSwallowsTheNextCarry := by
  intro s t hstep
  refine ⟨fun hc hd hw => ?_, step_keeps_stale_latch hstep, fun hc hd hw => ?_⟩
  · obtain ⟨htc, htd⟩ := step_carryPair_of_add hstep hw
    rw [agedLatch_of_flag_set hc, hd] at htd
    exact ⟨htc, htd⟩
  · obtain ⟨htc, htd⟩ := step_carryPair_of_add hstep hw
    rw [agedLatch_of_flag_clear hc, hd] at htd
    exact ⟨htc, htd, fun _ => step_jnc_of_latch_set htc htd⟩

/-- Settles O37: the second carry stands over the latch that the first one armed. -/
theorem secondOfTwoCarriesIsLost : Obligations.SecondOfTwoCarriesIsLost := by
  intro s t hc hd hw hstep
  obtain ⟨htc, htd⟩ := step_carryPair_of_add hstep hw
  rw [agedLatch_of_flag_set hc, hd] at htd
  exact ⟨htc, htd, agedFlag_of_latch_set htd, fun _ => step_jnc_of_latch_set htc htd⟩

/-- A machine with the carry set at the byte `jnc 9`. -/
def jncWithCarry (latch : Bool) : State :=
  { State.reset with c := true, d := latch, prog := [(0, 0xE9)] }

/-- Settles O38: with the carry set, `jnc 9` falls through over a clear latch and jumps over a set one. -/
theorem latchIsHiddenState : Obligations.LatchIsHiddenState :=
  ⟨jncWithCarry false, jncWithCarry true, _, _, rfl, rfl, rfl,
    step_jnc (imm := 9) rfl, step_jnc (imm := 9) rfl, by decide⟩

end Sys2Proof.Proofs

/-! The recorded outcome is not read (spec/60_exceptions.md R178): every effect ends by writing it. -/
namespace Sys2Proof.Proofs

open Sys2Proof.Machine

/-- The effect is the same whatever outcome is recorded before it. -/
def IgnoresOutcome (effect : State → StepResult) : Prop :=
  ∀ (s : State) (o : Option StepOutcome), effect { s with outcome := o } = effect s

theorem ignoresOutcome_raiseOutcome (o : StepOutcome) : IgnoresOutcome (raiseOutcome o) :=
  fun _ _ => rfl

theorem ignoresOutcome_transfer (dst : Dest) (src : Source) : IgnoresOutcome (transfer dst src) := by
  intro s o
  cases dst <;> cases src <;> rfl

theorem ignoresOutcome_addTransfer (dst : Dest) (src : Source) (imm : Nibble) :
    IgnoresOutcome (addTransfer dst src imm) := by
  intro s o
  cases dst <;> cases src <;> rfl

/-- The parts of a step before the dispatch read no outcome either. -/
theorem IgnoresOutcome.dispatchWith {effect : State → StepResult} (h : IgnoresOutcome effect)
    (imm : Nibble) : IgnoresOutcome (dispatchWith imm effect) := by
  intro s o
  rw [dispatchWith_eq, dispatchWith_eq]
  exact h (latchUpdate s) o

theorem ignoresOutcome_execJnc (imm : Nibble) : IgnoresOutcome (execJnc imm) :=
  IgnoresOutcome.dispatchWith (fun _ _ => rfl) imm

theorem ignoresOutcome_execJmp (imm : Nibble) : IgnoresOutcome (execJmp imm) := by
  intro s o
  have hjump : IgnoresOutcome (Machine.dispatchWith imm (jumpTo imm)) :=
    IgnoresOutcome.dispatchWith (fun _ _ => rfl) imm
  unfold execJmp
  rw [hjump s o]
  rfl

theorem ignoresOutcome_exec (i : Instr) : IgnoresOutcome (exec i) := by
  cases i with
  | addA imm | addB imm | outB imm => exact (ignoresOutcome_addTransfer _ _ imm).dispatchWith imm
  | nop => exact (ignoresOutcome_addTransfer .regA .regA 0).dispatchWith 0
  | movAB imm | inA imm | movAImm imm | movBA imm | inB imm | movBImm imm | outImm imm =>
    exact (ignoresOutcome_transfer _ _).dispatchWith imm
  | jnc imm => exact ignoresOutcome_execJnc imm
  | jmp imm => exact ignoresOutcome_execJmp imm
  | illegal1000 imm | illegal1010 imm | illegal1100 imm | illegal1101 imm =>
    exact (ignoresOutcome_raiseOutcome _).dispatchWith imm

/-- Settles O14: the byte fetched does not depend on the recorded outcome, nor does its effect. -/
theorem recordedOutcomeIsNeverRead : Obligations.RecordedOutcomeIsNeverRead := by
  intro s o
  rw [step_eq_exec, step_eq_exec, currentByte_outcome]
  exact ignoresOutcome_exec _ s o

end Sys2Proof.Proofs

/-! The program store (spec/20_memory.md R57) and the state after reset (spec/10_state.md R39). -/
namespace Sys2Proof.Proofs

open Sys2Proof.Machine

theorem write_of_lt {a : Nat} (h : a < Config.storeSize) (m : Memory) (v : Byte) :
    Memory.write m a v = .ok (Memory.poke m a v) :=
  if_pos h

theorem read_of_ge {a : Nat} (h : Config.storeSize ≤ a) (m : Memory) :
    Memory.read m a = .error (.noSuchAddress a) :=
  if_neg (Nat.not_lt.2 h)

theorem write_of_ge {a : Nat} (h : Config.storeSize ≤ a) (m : Memory) (v : Byte) :
    Memory.write m a v = .error (.noSuchAddress a) :=
  if_neg (Nat.not_lt.2 h)

/-- Settles O43: the bound of the store, at a read and at a write. -/
theorem addressMap : Obligations.AddressMap := fun m _ v =>
  ⟨fun hlt => ⟨read_of_lt hlt m, write_of_lt hlt m v⟩,
    fun hge => ⟨read_of_ge hge m, write_of_ge hge m v⟩⟩

/-- The stores read alike at every address that exists. -/
def ReadAlike (m m' : Memory) : Prop :=
  ∀ addr : Nat, addr < Config.storeSize → Memory.peek m addr = Memory.peek m' addr

theorem ReadAlike.symm {m m' : Memory} (h : ReadAlike m m') : ReadAlike m' m :=
  fun addr haddr => (h addr haddr).symm

/-- What a canonical store lists first reads as no unlisted byte, so a store that reads alike cannot
begin after it. -/
theorem not_readAlike_of_first_lt {lo lo' k : Nat} {v : Byte} {rest m' : Memory}
    (hm : Memory.wfFrom lo ((k, v) :: rest) = true) (hm' : Memory.wfFrom lo' m' = true)
    (hlt : k < lo') : ¬ ReadAlike ((k, v) :: rest) m' := by
  intro halike
  obtain ⟨-, hk, hv, -⟩ := (wfFrom_cons lo k v rest).1 hm
  have hread := halike k hk
  rw [peek_cons, if_pos rfl, peek_below hlt hm'] at hread
  exact hv hread

/-- Stores with the same first address that read alike have the same first byte, and their rests read
alike. -/
theorem ReadAlike.uncons {k : Nat} {v v' : Byte} {rest rest' : Memory} (hk : k < Config.storeSize)
    (hrest : Memory.wfFrom (k + 1) rest = true) (hrest' : Memory.wfFrom (k + 1) rest' = true)
    (halike : ReadAlike ((k, v) :: rest) ((k, v') :: rest')) : v = v' ∧ ReadAlike rest rest' := by
  refine ⟨by simpa [peek_cons] using halike k hk, fun addr haddr => ?_⟩
  by_cases heq : k = addr
  · subst heq
    rw [peek_below (Nat.lt_succ_self k) hrest, peek_below (Nat.lt_succ_self k) hrest']
  · simpa [peek_cons, heq] using halike addr haddr

/-- Canonical stores are compared entry by entry: neither may begin before the other. -/
theorem eq_of_readAlike {lo : Nat} {m m' : Memory} (hm : Memory.wfFrom lo m = true)
    (hm' : Memory.wfFrom lo m' = true) (halike : ReadAlike m m') : m = m' := by
  induction m generalizing lo m' with
  | nil =>
    cases m' with
    | nil => rfl
    | cons e' rest' =>
      exact absurd halike.symm (not_readAlike_of_first_lt hm' (lo' := e'.1 + 1) rfl (Nat.lt_succ_self _))
  | cons e rest ih =>
    obtain ⟨k, v⟩ := e
    cases m' with
    | nil => exact absurd halike (not_readAlike_of_first_lt hm (lo' := k + 1) rfl (Nat.lt_succ_self k))
    | cons e' rest' =>
      obtain ⟨k', v'⟩ := e'
      obtain ⟨-, hk, hv, hrest⟩ := (wfFrom_cons lo k v rest).1 hm
      obtain ⟨-, hk', hv', hrest'⟩ := (wfFrom_cons lo k' v' rest').1 hm'
      rcases Nat.lt_trichotomy k k' with hlt | rfl | hlt
      · have hfrom := (wfFrom_cons k' k' v' rest').2 ⟨Nat.le_refl k', hk', hv', hrest'⟩
        exact absurd halike (not_readAlike_of_first_lt hm hfrom hlt)
      · obtain ⟨rfl, hrests⟩ := halike.uncons hk hrest hrest'
        rw [ih hrest hrest' hrests]
      · have hfrom := (wfFrom_cons k k v rest).2 ⟨Nat.le_refl k, hk, hv, hrest⟩
        exact absurd halike.symm (not_readAlike_of_first_lt hm' hfrom hlt)

/-- Settles O45, by comparing the two stores entry by entry. -/
theorem canonicalStoresAreExtensional : Obligations.CanonicalStoresAreExtensional :=
  fun _ _ hm hm' halike => eq_of_readAlike hm hm' halike

/-- Settles O39: the fields as `State.reset` lists them, and the empty store at every 4-bit address. -/
theorem resetStateValues : Obligations.ResetStateValues :=
  ⟨rfl, rfl, rfl, rfl, rfl, rfl, rfl, rfl,
    fun addr => read_of_lt (nibble_lt_storeSize addr) State.reset.prog⟩

/-- Settles O56: the empty store is canonical, and no outcome is recorded that could be untrue. -/
theorem resetHasInvariant : Obligations.ResetHasInvariant := by
  have hnone (o : StepOutcome) : State.reset.outcome ≠ some o := by simp [State.reset]
  exact ⟨wf_nil, fun h => absurd h (hnone _), fun _ h => absurd h (hnone _), fun _ => hnone _⟩

/-- Settles O41: each host write is the update of its one field. -/
theorem hostWritesTouchOneElement : Obligations.HostWritesTouchOneElement :=
  fun _ _ _ => ⟨rfl, rfl, rfl, rfl, rfl, rfl⟩

end Sys2Proof.Proofs

/-! The console's actions: what each does to the engine (spec/60_exceptions.md R182 to R186). -/
namespace Sys2Proof.Proofs

open Sys2Proof.Machine

/-- A run goes on after a step that returns `Ok` (R183). -/
theorem act_runStep_of_ok {k : Console} {stopRequested : Bool} {t : State}
    (hphase : k.phase = .active stopRequested) (hstep : step k.engine = .next t)
    (ho : t.outcome = some .ok) : act .runStep k = .done { k with engine := t } := by
  simp [act, consoleRunStep, hphase, hstep, ho]

/-- Any other outcome ends the run and is delivered (R183, R185). -/
theorem act_runStep_of_ne_ok {k : Console} {stopRequested : Bool} {t : State} {o : StepOutcome}
    (hphase : k.phase = .active stopRequested) (hstep : step k.engine = .next t)
    (ho : t.outcome = some o) (hne : o ≠ .ok) :
    act .runStep k = .done { engine := t, phase := .idle, delivered := some o } := by
  cases o with
  | ok => exact absurd rfl hne
  | halted | immediateOverflow v | invalidOpcode op =>
    simp [act, consoleRunStep, hphase, hstep, ho]

section
variable {k k' : Console}

/-! The host's `step` and the run's next step do one step of the engine. -/

theorem step_of_consoleStep (h : consoleStep k = .done k') : step k.engine = .next k'.engine := by
  unfold consoleStep at h
  split at h
  · cases h
  · obtain ⟨t, _, hstep, -⟩ := step_completes k.engine
    rw [hstep] at h ⊢
    cases h
    rfl

theorem step_of_act_runStep (h : act .runStep k = .done k') : step k.engine = .next k'.engine := by
  obtain ⟨t, o, hstep, ho⟩ := step_completes k.engine
  rw [hstep]
  cases hphase : k.phase with
  | idle => simp [act, consoleRunStep, hphase] at h
  | active stopRequested =>
    by_cases hok : o = .ok
    · subst hok
      rw [act_runStep_of_ok hphase hstep ho] at h
      cases h
      rfl
    · rw [act_runStep_of_ne_ok hphase hstep ho hok] at h
      cases h
      rfl

/-! Starting a run, asking it to stop and its exit do not touch the engine. -/

theorem consoleStartRun_engine (h : consoleStartRun k = .done k') : k'.engine = k.engine := by
  unfold consoleStartRun at h
  split at h <;> cases h
  rfl

theorem consoleStop_engine (h : consoleStop k = .done k') : k'.engine = k.engine := by
  unfold consoleStop at h
  split at h <;> cases h <;> rfl

theorem consoleRunExit_engine (h : consoleRunExit k = .done k') : k'.engine = k.engine := by
  unfold consoleRunExit at h
  split at h <;> cases h
  rfl

theorem consoleEdit_prog {addr : Nibble} {byte : Byte} (h : consoleEdit addr byte k = .done k') :
    k'.engine.prog = Memory.poke k.engine.prog addr.toNat byte := by
  unfold consoleEdit at h
  split at h <;> cases h
  rfl

theorem consoleInstall_prog {image : List Byte} (h : consoleInstall image k = .done k') :
    loadImage image = .ok k'.engine.prog := by
  unfold consoleInstall installImage at h
  split at h
  · cases h
  · cases hload : loadImage image with
    | error e => simp [hload] at h
    | ok m =>
      simp only [hload] at h
      cases h
      rfl

/-- What an action can do to the program store: keep it, edit one byte, or load an image (R63). -/
theorem act_prog {x : Action} (h : act x k = .done k') :
    k'.engine.prog = k.engine.prog ∨
    (∃ (addr : Nibble) (byte : Byte), k'.engine.prog = Memory.poke k.engine.prog addr.toNat byte) ∨
    ∃ image : List Byte, loadImage image = .ok k'.engine.prog := by
  cases x with
  | reset | writeIn _ | debugA _ | debugB _ | debugOut _ | debugC _ | debugPc _ =>
    cases h
    exact .inl rfl
  | step => exact .inl (step_prog (step_of_consoleStep h))
  | runStep => exact .inl (step_prog (step_of_act_runStep h))
  | startRun => exact .inl (congrArg State.prog (consoleStartRun_engine h))
  | stop => exact .inl (congrArg State.prog (consoleStop_engine h))
  | runExit => exact .inl (congrArg State.prog (consoleRunExit_engine h))
  | edit addr byte => exact .inr (.inl ⟨addr, byte, consoleEdit_prog h⟩)
  | install image => exact .inr (.inr ⟨image, consoleInstall_prog h⟩)

end

/-- A loaded store is canonical (spec/70_reset_and_hazards.md R203). -/
theorem wf_of_loadImage {image : List Byte} {m : Memory} (h : loadImage image = .ok m) :
    Memory.wf m = true := by
  unfold loadImage at h
  split at h
  · next hfits =>
    cases h
    exact wfFrom_ofBytes image 0 (by omega)
  · cases h

/-- Settles O57: an edit and a load are the only changes of the store, and both keep the form. -/
theorem actionsKeepTheStoreCanonical : Obligations.ActionsKeepTheStoreCanonical := by
  intro x k k' hwf hact
  rcases act_prog hact with hkept | ⟨addr, byte, hedit⟩ | ⟨image, hload⟩
  · rw [hkept]
    exact hwf
  · rw [hedit]
    exact wf_poke hwf (nibble_lt_storeSize addr) byte
  · exact wf_of_loadImage hload

end Sys2Proof.Proofs

/-! The signal view (spec/10_state.md R40). -/
namespace Sys2Proof.Proofs

open Sys2Proof.Machine

/-- Without a host write at the edge, `IN` keeps its value. -/
theorem loadInPort_of_no_write {inp : InputSignals} (h : inp.hostWrites = false) (s : State) :
    loadInPort inp s = s := by
  simp [loadInPort, h]

/-- An edge with `step_en`, when the store drives `rom_data`, performs the machine's step on the state
with the host's write in it, and the outcome signal shows that step's outcome. -/
theorem clockEdge_performs_step {inp : InputSignals} {m : SignalModule} (hrst : inp.rst = false)
    (hstepEn : inp.stepEn = true)
    (hrom : inp.romData = romDataOf m.engine.prog (outputSignals m).romAddr) :
    ∃ (t : State) (o : StepOutcome) (m' : SignalModule),
      step (loadInPort inp m.engine) = .next t ∧ t.outcome = some o ∧
      clockEdge inp m = .next m' ∧ m'.engine = t ∧
      (outputSignals m').outcome = signalOfOutcome o := by
  obtain ⟨t, o, hstep, ho⟩ := step_completes (loadInPort inp m.engine)
  have hbyte : inp.romData = currentByte (loadInPort inp m.engine) := by
    rw [hrom, currentByte_loadInPort]
    rfl
  have hexec : exec (decodeByte inp.romData) (loadInPort inp m.engine) = .next t := by
    rw [hbyte, ← step_eq_exec]
    exact hstep
  exact ⟨t, o, _, hstep, ho, clockEdge_step hrst hstepEn hexec, rfl, outcomeSignal_of_step rfl ho⟩

/-- Settles O53: the three kinds of edge, the host's write, and the outputs as wired. -/
theorem clockEdgeView : Obligations.ClockEdgeView := by
  intro inp m
  refine ⟨fun hrst => clockEdge_rst hrst m, clockEdge_performs_step,
    fun hrst hstepEn => clockEdge_idle hrst hstepEn m, fun hwrite => ?_,
    fun hno => loadInPort_of_no_write hno m.engine, rfl, rfl, rfl, rfl, rfl⟩
  rw [loadInPort_eq, if_pos hwrite]

/-- The next step of a run that was not asked to stop leaves `step_en` at 1 exactly after `Ok`. -/
theorem runStep_keeps_stepEn_iff_ok {k : Console} {t : State} {o : StepOutcome}
    (hphase : k.phase = .active false) (hstep : step k.engine = .next t)
    (ho : t.outcome = some o) (goesOn : Bool) :
    ∃ k' : Console, act .runStep k = .done k' ∧ k'.engine = t ∧
      (runStepEn k'.phase goesOn = true ↔ o = .ok) := by
  by_cases hok : o = .ok
  · subst hok
    exact ⟨_, act_runStep_of_ok hphase hstep ho, rfl, by simp [runStepEn, hphase]⟩
  · exact ⟨_, act_runStep_of_ne_ok hphase hstep ho hok, rfl, by simp [runStepEn, hok]⟩

/-- Settles O54: the edge and the run take the same step, and an edge that the run leaves out is idle. -/
theorem runHoldsStepEn : Obligations.RunHoldsStepEn := by
  intro inp m k goesOn hengine hrst hno hrom hstepEn
  refine ⟨fun hphase => ?_, fun hphase hstop => ?_⟩
  · rw [hphase] at hstepEn
    obtain ⟨t, o, m', hstep, ho, hedge, hm', hsignal⟩ := clockEdge_performs_step hrst hstepEn hrom
    rw [loadInPort_of_no_write hno, ← hengine] at hstep
    obtain ⟨k', hact, hk', hiff⟩ := runStep_keeps_stepEn_iff_ok hphase hstep ho goesOn
    refine ⟨m', k', hedge, hact, hk'.trans hm'.symm, hiff.trans ?_⟩
    rw [hsignal, signalOfOutcome_eq_ok]
  · rw [hphase, hstop] at hstepEn
    exact ⟨_, clockEdge_idle hrst hstepEn m, loadInPort_of_no_write hno m.engine⟩

end Sys2Proof.Proofs

/-! The outcome of a step, told from the instruction and then from the byte fetched
(spec/60_exceptions.md R171 to R173), and the invariant. -/
namespace Sys2Proof.Proofs

open Sys2Proof.Machine

/-! The fields of a byte are those of the instruction it decodes to (spec/30_encoding.md R71, R73). -/

theorem joinFields_opcodeField_immField : ∀ b : Byte, joinFields (opcodeField b) (immField b) = b := by
  decide

theorem fields_of_decodeFields : ∀ opcode imm : Nibble,
    opcodeOf (decodeFields opcode imm) = opcode ∧ immOf (decodeFields opcode imm) = imm := by
  decide

theorem fields_of_decodeByte (b : Byte) :
    opcodeOf (decodeByte b) = opcodeField b ∧ immOf (decodeByte b) = immField b := by
  unfold decodeByte
  split
  · next hzero =>
    subst hzero
    exact ⟨rfl, rfl⟩
  · exact fields_of_decodeFields (opcodeField b) (immField b)

/-- Encoding undoes decoding, for every byte. -/
theorem encodeByte_decodeByte (b : Byte) : encodeByte (decodeByte b) = b := by
  obtain ⟨hopcode, himm⟩ := fields_of_decodeByte b
  rw [encodeByte, hopcode, himm]
  exact joinFields_opcodeField_immField b

/-- The bytes of a jump decode to it and no others do. -/
theorem decodeByte_eq_jmp_iff (b : Byte) (imm : Nibble) :
    decodeByte b = .jmp imm ↔ b = joinFields 0b1111 imm := by
  constructor
  · intro hdecode
    rw [← encodeByte_decodeByte b, hdecode]
    rfl
  · rintro rfl
    exact Laws.RoundTrip.jmp imm rfl

/-- The outcome an instruction returns when it stands at `pc`: it has an illegal opcode, or is the halt
idiom, or neither. -/
def outcomeOfInstr (i : Instr) (pc : Nibble) : StepOutcome :=
  if isIllegalOpcode (opcodeOf i) then .invalidOpcode (opcodeOf i)
  else if i = .jmp pc then .halted
  else .ok

theorem eq_jmp_of_outcomeOfInstr_halted {i : Instr} {pc : Nibble}
    (h : outcomeOfInstr i pc = .halted) : i = .jmp pc := by
  unfold outcomeOfInstr at h
  split at h
  · cases h
  · split at h
    · next hjmp => exact hjmp
    · cases h

theorem illegal_of_outcomeOfInstr_invalidOpcode {i : Instr} {pc op : Nibble}
    (h : outcomeOfInstr i pc = .invalidOpcode op) :
    opcodeOf i = op ∧ isIllegalOpcode op = true := by
  unfold outcomeOfInstr at h
  split at h
  · next hillegal =>
    cases h
    exact ⟨rfl, hillegal⟩
  · split at h <;> cases h

/-- No instruction's operand overflows (spec/40_step_cycle.md R94). -/
theorem outcomeOfInstr_ne_immediateOverflow (i : Instr) (pc v : Nibble) :
    outcomeOfInstr i pc ≠ .immediateOverflow v := by
  intro h
  unfold outcomeOfInstr at h
  split at h
  · cases h
  · split at h <;> cases h

/-- Every instruction returns its outcome, whatever the rest of the state. -/
theorem exec_outcome (i : Instr) (s : State) : ∃ t : State, exec i s = .next t ∧
    t.outcome = some (outcomeOfInstr i s.pc) := by
  cases i with
  | addA imm | addB imm | outB imm | movAB imm | inA imm | movAImm imm | movBA imm | inB imm
  | movBImm imm | outImm imm => exact ⟨_, dispatchWith_eq imm _ s, rfl⟩
  | nop => exact ⟨_, dispatchWith_eq 0 (addTransfer .regA .regA 0) s, rfl⟩
  | jnc imm => exact ⟨_, exec_jnc imm s, rfl⟩
  | jmp imm =>
    by_cases hself : imm = s.pc
    · subst hself
      exact ⟨_, if_pos rfl, by simp [outcomeOfInstr, isIllegalOpcode, opcodeOf]⟩
    · exact ⟨_, (if_neg hself).trans (dispatchWith_eq imm _ s),
        by simp [outcomeOfInstr, isIllegalOpcode, opcodeOf, hself]⟩
  | illegal1000 imm | illegal1010 imm | illegal1100 imm | illegal1101 imm =>
    exact ⟨_, dispatchWith_eq imm _ s, rfl⟩

/-- An instruction that returns another outcome than `Ok` keeps `pc` (spec/40_step_cycle.md R98). -/
theorem InstrEffect.pc_eq_of_ne_ok {i : Instr} {s t : State} (h : InstrEffect i s t)
    (hfail : t.outcome ≠ some .ok) : t.pc = s.pc := by
  cases h with
  | adds | moves | jumps => exact absurd rfl hfail
  | illegal | halts => rfl

section
variable {s t : State}

/-- A step returns the outcome of the instruction that stands at `pc`. -/
theorem step_outcome (h : step s = .next t) :
    t.outcome = some (outcomeOfInstr (decodeByte (currentByte s)) s.pc) := by
  obtain ⟨u, hexec, hu⟩ := exec_outcome (decodeByte (currentByte s)) s
  rw [step_eq_exec, hexec] at h
  cases h
  exact hu

/-- A step that returns `o` returned the outcome of the instruction at `pc`, which is `o`. -/
theorem outcomeOfInstr_of_step (h : step s = .next t) {o : StepOutcome} (ho : t.outcome = some o) :
    outcomeOfInstr (decodeByte (currentByte s)) s.pc = o :=
  Option.some.inj ((step_outcome h).symm.trans ho)

/-- A step that returns another outcome than `Ok` leaves `pc` at the byte it fetched
(spec/60_exceptions.md R177). -/
theorem step_stays_of_ne_ok (h : step s = .next t) (hfail : t.outcome ≠ some .ok) :
    t.pc = s.pc ∧ currentByte t = currentByte s := by
  have hpc : t.pc = s.pc := (step_effect h).pc_eq_of_ne_ok hfail
  refine ⟨hpc, ?_⟩
  unfold currentByte
  rw [step_prog h, hpc]

/-- `Halted` is returned only at the halt idiom, which `pc` still addresses (R171). -/
theorem atHalt_of_step_halted (h : step s = .next t) (ho : t.outcome = some .halted) : AtHalt t := by
  have hjmp := eq_jmp_of_outcomeOfInstr_halted (outcomeOfInstr_of_step h ho)
  obtain ⟨hpc, hbyte⟩ := step_stays_of_ne_ok h (by simp [ho])
  unfold AtHalt
  rw [hbyte, hpc]
  exact (decodeByte_eq_jmp_iff _ _).1 hjmp

/-- `InvalidOpcode(op)` is returned only at a byte with that illegal opcode, which `pc` still addresses
(R173). -/
theorem atIllegal_of_step_invalidOpcode (h : step s = .next t) {op : Nibble}
    (ho : t.outcome = some (.invalidOpcode op)) : AtIllegal op t := by
  obtain ⟨hopcode, hillegal⟩ :=
    illegal_of_outcomeOfInstr_invalidOpcode (outcomeOfInstr_of_step h ho)
  obtain ⟨-, hbyte⟩ := step_stays_of_ne_ok h (by simp [ho])
  obtain ⟨hfield, -⟩ := fields_of_decodeByte (currentByte s)
  refine ⟨?_, hillegal⟩
  rw [hbyte, ← hfield]
  exact hopcode

/-- `ImmediateOverflow` is never returned (R172). -/
theorem step_outcome_ne_immediateOverflow (h : step s = .next t) (v : Nibble) :
    t.outcome ≠ some (.immediateOverflow v) :=
  fun ho => outcomeOfInstr_ne_immediateOverflow _ _ v (outcomeOfInstr_of_step h ho)

/-- Whatever was recorded before it, a step records a truthful outcome. -/
theorem step_outcomeTruthful (h : step s = .next t) : OutcomeTruthful t :=
  ⟨atHalt_of_step_halted h, fun _ => atIllegal_of_step_invalidOpcode h,
    step_outcome_ne_immediateOverflow h⟩

end

/-- Settles O55: a step keeps the store, and with it the canonical form; and it records the outcome of
the byte it fetched, where `pc` stays unless that outcome is `Ok`. -/
theorem stepKeepsInvariant : Obligations.StepKeepsInvariant := by
  intro s t hinv hstep
  obtain ⟨hwf, -⟩ := hinv
  refine ⟨?_, step_outcomeTruthful hstep⟩
  rw [step_prog hstep]
  exact hwf

end Sys2Proof.Proofs

/-! Program edits, and what an active run forbids (spec/20_memory.md R62, R63;
spec/60_exceptions.md R186). -/
namespace Sys2Proof.Proofs

open Sys2Proof.Machine

/-- A write leaves what is read at every other address, an address that does not exist included. -/
theorem read_poke_other (m : Memory) {a b : Nat} (h : b ≠ a) (v : Byte) :
    Memory.read (Memory.poke m a v) b = Memory.read m b := by
  unfold Memory.read
  rw [peek_poke_other m h]

/-- An edit under `pc` is what the next step fetches. -/
theorem currentByte_editProgram_pc {s : State} (hwf : Memory.wf s.prog = true) (v : Byte) :
    currentByte (editProgram s.pc v s) = v :=
  peek_poke_same hwf s.pc.toNat v

/-- Settles O44: the laws of the store at the edited address, and a step as the meaning of the byte
fetched. -/
theorem editIsSeenByTheNextFetch : Obligations.EditIsSeenByTheNextFetch := by
  intro s addr v hwf
  have hexists := nibble_lt_storeSize addr
  rw [editProgram_prog]
  refine ⟨?_, fun other hother => read_poke_other s.prog hother v, wf_poke hwf hexists v, ?_⟩
  · rw [read_of_lt hexists, peek_poke_same hwf]
  · rintro rfl
    rw [step_eq_exec, currentByte_editProgram_pc hwf]

section
variable {k : Console} {stopRequested : Bool}

theorem act_step_of_active (h : k.phase = .active stopRequested) : act .step k = .stuck := by
  simp only [act, consoleStep, h]

theorem act_startRun_of_active (h : k.phase = .active stopRequested) : act .startRun k = .stuck := by
  simp only [act, consoleStartRun, h]

theorem act_edit_of_active (h : k.phase = .active stopRequested) (addr : Nibble) (v : Byte) :
    act (.edit addr v) k = .stuck := by
  simp only [act, consoleEdit, h]

theorem act_install_of_active (h : k.phase = .active stopRequested) (image : List Byte) :
    act (.install image) k = .stuck := by
  simp only [act, consoleInstall, h]

end

/-- Settles O51: each of the four actions is stuck while a run is active. -/
theorem noEditOrOverlapDuringARun : Obligations.NoEditOrOverlapDuringARun :=
  fun _ _ hphase => ⟨act_step_of_active hphase, act_startRun_of_active hphase,
    act_edit_of_active hphase, act_install_of_active hphase⟩

end Sys2Proof.Proofs

/-! Decoding and encoding are inverse to each other (spec/30_encoding.md R70 to R76). -/
namespace Sys2Proof.Proofs

/-- The round trip of every instruction, assembled from its rows in the opcode map. -/
theorem decodeByte_encodeByte_of_wellFormed (i : Instr) (h : WellFormed i = true) :
    decodeByte (encodeByte i) = i := by
  cases i with
  | addA imm => exact Laws.RoundTrip.addA imm h
  | movAB imm => exact Laws.RoundTrip.movAB imm h
  | inA imm => exact Laws.RoundTrip.inA imm h
  | movAImm imm => exact Laws.RoundTrip.movAImm imm h
  | movBA imm => exact Laws.RoundTrip.movBA imm h
  | addB imm => exact Laws.RoundTrip.addB imm h
  | inB imm => exact Laws.RoundTrip.inB imm h
  | movBImm imm => exact Laws.RoundTrip.movBImm imm h
  | outB imm => exact Laws.RoundTrip.outB imm h
  | outImm imm => exact Laws.RoundTrip.outImm imm h
  | jnc imm => exact Laws.RoundTrip.jnc imm h
  | jmp imm => exact Laws.RoundTrip.jmp imm h
  | nop => exact Laws.RoundTrip.nop h
  | illegal1000 imm => exact Laws.RoundTrip.illegal1000 imm h
  | illegal1010 imm => exact Laws.RoundTrip.illegal1010 imm h
  | illegal1100 imm => exact Laws.RoundTrip.illegal1100 imm h
  | illegal1101 imm => exact Laws.RoundTrip.illegal1101 imm h

/-- Settles O1: an instruction is one byte, and that byte decodes to it. -/
theorem decodeUndoesEncode : Obligations.DecodeUndoesEncode := by
  intro i rest hwf
  have hstream : decode (encode i ++ rest) = .ok (decodeByte (encodeByte i), rest) := rfl
  rw [hstream, decodeByte_encodeByte_of_wellFormed i hwf]

/-- The only term that stands for no byte of its own (log entry 2). -/
theorem wellFormed_iff_ne_addA_zero (i : Instr) : WellFormed i = true ↔ i ≠ .addA 0 := by
  cases i <;> simp [WellFormed]

/-- The decoder never answers `addA 0`, whose byte 0x00 it decodes to `nop`. -/
theorem decodeByte_ne_addA_zero (b : Byte) : decodeByte b ≠ .addA 0 := by
  intro hdecode
  have hzero : b = 0 := by
    rw [← encodeByte_decodeByte b, hdecode]
    rfl
  rw [hzero] at hdecode
  cases hdecode

/-- Settles O2: encoding undoes decoding on every byte, and the round trip leaves no second well-formed
instruction for it. -/
theorem everyByteEncodesOneInstruction : Obligations.EveryByteEncodesOneInstruction := by
  intro b
  refine ⟨(wellFormed_iff_ne_addA_zero _).2 (decodeByte_ne_addA_zero b),
    congrArg (fun byte => [byte]) (encodeByte_decodeByte b), fun i hwf hencode => ?_⟩
  have hbyte : encodeByte i = b := List.singleton_inj.1 hencode
  rw [← hbyte, decodeByte_encodeByte_of_wellFormed i hwf]

/-- Settles O3: each row of the map is the round trip of its instruction. -/
theorem opcodeMapDecodes : Obligations.OpcodeMapDecodes :=
  ⟨Laws.RoundTrip.nop rfl, fun imm =>
    ⟨fun hne => Laws.RoundTrip.addA imm (bne_iff_ne.2 hne), Laws.RoundTrip.movAB imm rfl,
      Laws.RoundTrip.inA imm rfl, Laws.RoundTrip.movAImm imm rfl, Laws.RoundTrip.movBA imm rfl,
      Laws.RoundTrip.addB imm rfl, Laws.RoundTrip.inB imm rfl, Laws.RoundTrip.movBImm imm rfl,
      Laws.RoundTrip.illegal1000 imm rfl, Laws.RoundTrip.outB imm rfl,
      Laws.RoundTrip.illegal1010 imm rfl, Laws.RoundTrip.outImm imm rfl,
      Laws.RoundTrip.illegal1100 imm rfl, Laws.RoundTrip.illegal1101 imm rfl,
      Laws.RoundTrip.jnc imm rfl, Laws.RoundTrip.jmp imm rfl⟩⟩

/-- A table word that is the byte of a well-formed instruction decodes to that instruction. -/
theorem decodeTableWord_of_encodeByte {i : Instr} {w : Nat} (hwf : WellFormed i = true)
    (hword : BitVec.ofNat 8 w = encodeByte i) : decodeTableWord 8 w = some i := by
  have hbyte : decodeTableWord 8 w = some (decodeByte (BitVec.ofNat 8 w)) := rfl
  rw [hbyte, hword, decodeByte_encodeByte_of_wellFormed i hwf]

/-- Settles O4: each word is the encoding of the instruction named. -/
theorem sampleWordsDecode : Obligations.SampleWordsDecode :=
  ⟨decodeTableWord_of_encodeByte rfl rfl, decodeTableWord_of_encodeByte rfl rfl,
    decodeTableWord_of_encodeByte rfl rfl, decodeTableWord_of_encodeByte rfl rfl,
    decodeTableWord_of_encodeByte rfl rfl, decodeTableWord_of_encodeByte rfl rfl⟩

end Sys2Proof.Proofs

/-! The illegal opcodes (spec/30_encoding.md R75, spec/60_exceptions.md R173). -/
namespace Sys2Proof.Proofs

open Sys2Proof.Machine

/-- An outcome raised in the dispatch leaves the aged carry pair, and the rest as it was. -/
theorem dispatchWith_raiseOutcome (imm : Nibble) (o : StepOutcome) (s : State) :
    dispatchWith imm (raiseOutcome o) s =
      .next { s with c := agedFlag s, d := agedLatch s, outcome := some o } := by
  rw [dispatchWith_eq, raiseOutcome_eq, latchUpdate_eq]

/-- Every instruction with an illegal opcode reports that opcode after the latch update. -/
theorem exec_of_illegalOpcode {i : Instr} (h : isIllegalOpcode (opcodeOf i) = true) (s : State) :
    exec i s = .next { s with
      c := agedFlag s, d := agedLatch s, outcome := some (.invalidOpcode (opcodeOf i)) } := by
  cases i with
  | illegal1000 imm | illegal1010 imm | illegal1100 imm | illegal1101 imm =>
    exact dispatchWith_raiseOutcome imm _ s
  | addA | movAB | inA | movAImm | movBA | addB | inB | movBImm | outB | outImm | jnc | jmp | nop =>
    exact absurd h Bool.false_ne_true

/-- A step at an illegal opcode ages the carry pair, reports the opcode and changes nothing else. -/
theorem step_of_atIllegal {op : Nibble} {s : State} (h : AtIllegal op s) :
    step s = .next { s with
      c := agedFlag s, d := agedLatch s, outcome := some (.invalidOpcode op) } := by
  obtain ⟨hfield, hillegal⟩ := h
  obtain ⟨hopcode, -⟩ := fields_of_decodeByte (currentByte s)
  rw [← hfield, ← hopcode] at hillegal ⊢
  rw [step_eq_exec]
  exact exec_of_illegalOpcode hillegal s

/-- Settles O29: the four illegal rows of `exec`, and a step at a byte joined from such an opcode. -/
theorem illegalOpcodeResult : Obligations.IllegalOpcodeResult := by
  intro imm s
  refine ⟨exec_of_illegalOpcode rfl s, exec_of_illegalOpcode rfl s, exec_of_illegalOpcode rfl s,
    exec_of_illegalOpcode rfl s, fun op hillegal hbyte => step_of_atIllegal ⟨?_, hillegal⟩⟩
  obtain ⟨hfield, -⟩ := Laws.fields_of_join op imm
  rw [hbyte, hfield]

end Sys2Proof.Proofs

/-! The step cycle (spec/40_step_cycle.md R90 to R103): what every step answers, and the laws of the
adder it uses. -/
namespace Sys2Proof.Proofs

open Sys2Proof.Machine

/-- Settles O5: the fetch is total, and every byte decodes to a well-formed instruction. -/
theorem stepRunsTheDecodedInstruction : Obligations.StepRunsTheDecodedInstruction := fun s =>
  ⟨fetchByte_eq s, rfl, (wellFormed_iff_ne_addA_zero _).2 (decodeByte_ne_addA_zero _),
    step_eq_exec s⟩

/-- The adder's sum is the wrapping sum of the two nibbles. -/
theorem add4_sum_eq_add (x y : Nibble) : (add4 x y).sum = x + y := rfl

theorem add4_carry_iff (x y : Nibble) : (add4 x y).carry = true ↔ 15 < x.toNat + y.toNat := by
  rw [add4_carry, decide_eq_true_iff]

theorem add4_comm (x y : Nibble) : add4 x y = add4 y x := by
  rw [add4, add4, Nat.add_comm]

theorem add4_zero (x : Nibble) : add4 x 0 = { sum := x, carry := false } := by
  have hsum : (add4 x 0).sum = x := BitVec.add_zero x
  have hcarry : (add4 x 0).carry = false := decide_eq_false (not_operand_overflow x)
  exact congrArg₂ AddResult.mk hsum hcarry

/-- The complement of a nibble other than 0 is not reduced mod 16. -/
theorem toNat_zero_sub {k : Nibble} (hk : k ≠ 0) : (0 - k).toNat = 16 - k.toNat := by
  bv_omega

/-- Settles O8: the laws are those of 4-bit addition, and adding the complement `16 - k` passes 15
exactly when `k` is at most `x`. -/
theorem adderLaws : Obligations.AdderLaws := by
  intro x k
  have hx : x.toNat < 16 := x.isLt
  have hk : k.toNat < 16 := k.isLt
  refine ⟨add4_comm x k, add4_zero x, ?_, fun hne => ⟨?_, ?_⟩⟩
  · rw [add4_carry_iff]
    omega
  · have hneg : 0 - k = -k := BitVec.zero_sub k
    rw [add4_sum_eq_add, hneg, BitVec.sub_eq_add_neg]
  · rw [add4_carry_iff, toNat_zero_sub hne]
    omega

/-- Adding zero copies the source, clears `C` and leaves the aged latch. -/
theorem dispatchWith_addTransfer_zero (dst : Dest) (src : Source) (s : State) :
    dispatchWith 0 (addTransfer dst src 0) s =
      .next { writeDest dst (readSource src s) s with
        c := false, d := agedLatch s, pc := s.pc + 1, outcome := some .ok } := by
  rw [dispatchWith_eq, addTransfer_eq, add4_zero, latchUpdate_eq]
  cases dst <;> cases src <;> rfl

/-- Settles O18: `nop` and the three adds of zero copy a value, for all but `out b` onto itself. -/
theorem nopIsAddZero : Obligations.NopIsAddZero := by
  intro s
  have hnop := dispatchWith_addTransfer_zero .regA .regA s
  refine ⟨hnop, hnop, fun hbyte => ?_, dispatchWith_addTransfer_zero .regB .regB s,
    dispatchWith_addTransfer_zero .portOut .regB s⟩
  rw [step_eq_exec, hbyte]
  exact hnop

/-- Settles O15, by induction on the number of steps, each of which completes. -/
theorem everyNumberOfStepsCompletes : Obligations.EveryNumberOfStepsCompletes := by
  intro n
  induction n with
  | zero => exact fun s => ⟨s, rfl⟩
  | succ n ih =>
    intro s
    obtain ⟨t, -, hstep, -⟩ := step_completes s
    rw [stepN_succ hstep]
    exact ih t

end Sys2Proof.Proofs

/-! What each outcome leaves behind, and when it is returned (spec/40_step_cycle.md R93, R94, R100,
R103). -/
namespace Sys2Proof.Proofs

open Sys2Proof.Machine

/-- Settles O10: no instruction's outcome is `ImmediateOverflow`. -/
theorem immediateOverflowUnreachable : Obligations.ImmediateOverflowUnreachable :=
  fun _ _ v hstep => step_outcome_ne_immediateOverflow hstep v

/-- A jump to its own address halts before the latch update (R93). -/
theorem exec_jmp_self (s : State) : exec (.jmp s.pc) s = .next { s with outcome := some .halted } :=
  if_pos rfl

/-- Any other jump ages the carry pair and writes `pc` (spec/44_jump.md R141). -/
theorem exec_jmp_of_ne {imm : Nibble} {s : State} (h : imm ≠ s.pc) :
    exec (.jmp imm) s = .next { latchUpdate s with pc := imm, outcome := some .ok } :=
  (if_neg h).trans (dispatchWith_eq imm (jumpTo imm) s)

theorem step_of_atHalt {s : State} (h : AtHalt s) :
    step s = .next { s with outcome := some .halted } := by
  rw [step_eq_exec, (decodeByte_eq_jmp_iff _ _).2 h, exec_jmp_self]

/-- An instruction that is neither illegal nor the halt idiom returns `Ok`. -/
theorem outcomeOfInstr_eq_ok {i : Instr} {pc : Nibble} (hlegal : isIllegalOpcode (opcodeOf i) ≠ true)
    (hjmp : i ≠ .jmp pc) : outcomeOfInstr i pc = .ok :=
  (if_neg hlegal).trans (if_neg hjmp)

section
variable {s t : State}

theorem step_outcome_of_atHalt (h : step s = .next t) (hhalt : AtHalt s) :
    t.outcome = some .halted := by
  rw [step_of_atHalt hhalt] at h
  cases h
  rfl

theorem step_outcome_of_atIllegal (h : step s = .next t) {op : Nibble} (hillegal : AtIllegal op s) :
    t.outcome = some (.invalidOpcode op) := by
  rw [step_of_atIllegal hillegal] at h
  cases h
  rfl

/-- A step that finds neither the halt idiom nor an illegal opcode returns `Ok`. -/
theorem step_outcome_of_neither (h : step s = .next t) (hhalt : ¬ AtHalt s)
    (hlegal : ∀ op : Nibble, ¬ AtIllegal op s) : t.outcome = some .ok := by
  obtain ⟨hopcode, -⟩ := fields_of_decodeByte (currentByte s)
  rw [step_outcome h, outcomeOfInstr_eq_ok]
  · intro hillegal
    exact hlegal _ ⟨hopcode.symm, hillegal⟩
  · intro hjmp
    exact hhalt ((decodeByte_eq_jmp_iff _ _).1 hjmp)

end

/-- Settles O9: the step that exists returns `Halted`, `InvalidOpcode` or `Ok` by the byte it finds, and
leaves in `C` the carry its dispatch writes. -/
theorem outcomeCensus : Obligations.OutcomeCensus := by
  intro s
  obtain ⟨t, -, hstep, -⟩ := step_completes s
  refine ⟨t, hstep, step_outcome_of_atHalt hstep, fun _ => step_outcome_of_atIllegal hstep,
    step_outcome_of_neither hstep, fun w hw => ?_⟩
  obtain ⟨hc, -⟩ := step_carryPair_of_add hstep hw
  exact hc

section
variable {i : Instr} {s t : State}

/-- Halting leaves everything, the carry pair included. -/
theorem InstrEffect.eq_of_halted (h : InstrEffect i s t) (ho : t.outcome = some .halted) :
    t = { s with outcome := some .halted } := by
  cases h with
  | halts => rfl
  | adds | moves | jumps | illegal => simp at ho

/-- An illegal opcode leaves everything but the aged carry pair. -/
theorem InstrEffect.eq_of_invalidOpcode (h : InstrEffect i s t) {op : Nibble}
    (ho : t.outcome = some (.invalidOpcode op)) :
    t = { s with c := agedFlag s, d := agedLatch s, outcome := some (.invalidOpcode op) } := by
  cases h with
  | illegal => rw [latchUpdate_eq, ← ho]
  | adds | moves | jumps | halts => simp at ho

end

/-- Settles O11: of the five shapes of a next state, one halts and one reports an illegal opcode; the
others keep `IN` and the store and leave the carry pair of their dispatch. -/
theorem stateLeftByEachOutcome : Obligations.StateLeftByEachOutcome := by
  intro s t hstep
  have heffect := step_effect hstep
  refine ⟨heffect.eq_of_halted, fun _ => heffect.eq_of_invalidOpcode, fun hok => ?_⟩
  obtain ⟨hc, hd⟩ := step_carryPair hstep (by simp [hok])
  refine ⟨heffect.inPort_eq, fun addr => ?_, hd, hc⟩
  rw [heffect.prog_eq]

end Sys2Proof.Proofs

/-! The program counter (spec/40_step_cycle.md R98, spec/10_state.md R25). -/
namespace Sys2Proof.Proofs

open Sys2Proof.Machine

/-- A byte is joined from its opcode and its operand field (spec/30_encoding.md R71). -/
theorem eq_joinFields_of_opcodeField {b : Byte} {opcode : Nibble} (h : opcodeField b = opcode) :
    b = joinFields opcode (immField b) := by
  rw [← h, joinFields_opcodeField_immField]

/-- The ten instructions that do not jump advance `pc` and return `Ok`. -/
theorem exec_advances {i : Instr} (hlegal : isIllegalOpcode (opcodeOf i) = false)
    (hjmp : opcodeOf i ≠ 0b1111) (hjnc : opcodeOf i ≠ 0b1110) (s : State) :
    ∃ t : State, exec i s = .next t ∧ t.outcome = some .ok ∧ t.pc = s.pc + 1 := by
  cases i with
  | addA imm | addB imm | outB imm | movAB imm | inA imm | movAImm imm | movBA imm | inB imm
  | movBImm imm | outImm imm => exact ⟨_, dispatchWith_eq imm _ s, rfl, rfl⟩
  | nop => exact ⟨_, dispatchWith_eq 0 (addTransfer .regA .regA 0) s, rfl, rfl⟩
  | jnc => exact absurd rfl hjnc
  | jmp => exact absurd rfl hjmp
  | illegal1000 | illegal1010 | illegal1100 | illegal1101 =>
    exact absurd hlegal.symm Bool.false_ne_true

section
variable {s t : State}

/-- A `jmp` leaves its operand in `pc`, also where it halts there. -/
theorem step_jmp_pc (h : step s = .next t) {imm : Nibble}
    (hbyte : currentByte s = joinFields 0b1111 imm) : t.pc = imm := by
  rw [step_eq_exec, (decodeByte_eq_jmp_iff _ _).2 hbyte] at h
  by_cases hself : imm = s.pc
  · subst hself
    rw [exec_jmp_self] at h
    cases h
    rfl
  · rw [exec_jmp_of_ne hself] at h
    cases h
    rfl

/-- A `jnc` leaves the next address in `pc` where the flag survives the latch update, and its operand
otherwise. -/
theorem step_jnc_pc (h : step s = .next t) {imm : Nibble}
    (hbyte : currentByte s = joinFields 0b1110 imm) :
    t.pc = if agedFlag s then s.pc + 1 else imm := by
  rw [step_jnc hbyte] at h
  cases h
  rfl

theorem step_advances (h : step s = .next t)
    (hlegal : isIllegalOpcode (opcodeField (currentByte s)) = false)
    (hjmp : opcodeField (currentByte s) ≠ 0b1111) (hjnc : opcodeField (currentByte s) ≠ 0b1110) :
    t.outcome = some .ok ∧ t.pc = s.pc + 1 := by
  obtain ⟨hopcode, -⟩ := fields_of_decodeByte (currentByte s)
  rw [← hopcode] at hlegal hjmp hjnc
  obtain ⟨u, hexec, hu⟩ := exec_advances hlegal hjmp hjnc s
  rw [step_eq_exec, hexec] at h
  cases h
  exact hu

end

/-- The increment wraps mod 16. -/
theorem toNat_add_one (pc : Nibble) : (pc + 1).toNat = (pc.toNat + 1) % 16 :=
  BitVec.toNat_add pc 1

/-- Settles O13, by the opcode of the byte fetched. -/
theorem programCounterRule : Obligations.ProgramCounterRule := by
  intro s t hstep
  refine ⟨fun hfail => ?_, fun _ hjmp => step_jmp_pc hstep (eq_joinFields_of_opcodeField hjmp),
    fun hjnc hclear => ?_, fun hjnc hset => ?_, fun hlegal hjmp hjnc => ?_⟩
  · obtain ⟨hpc, -⟩ := step_stays_of_ne_ok hstep hfail
    exact hpc
  · simpa [hclear] using step_jnc_pc hstep (eq_joinFields_of_opcodeField hjnc)
  · rw [step_jnc_pc hstep (eq_joinFields_of_opcodeField hjnc), if_pos hset, toNat_add_one]
  · obtain ⟨hok, hpc⟩ := step_advances hstep hlegal hjmp hjnc
    exact ⟨hok, by rw [hpc, toNat_add_one]⟩

end Sys2Proof.Proofs

/-! `jnc` to its own address (spec/44_jump.md R145). -/
namespace Sys2Proof.Proofs

open Sys2Proof.Machine

/-- The flag survives the latch update only over a clear latch, which the update then arms. -/
theorem agedLatch_of_agedFlag {s : State} (h : agedFlag s = true) : agedLatch s = true := by
  unfold agedFlag at h
  obtain ⟨hc, hd⟩ := Bool.and_eq_true_iff.1 h
  rw [agedLatch_of_flag_set hc, hd]

/-- A state that a step answers with itself is answered by any number of steps. -/
theorem stepN_of_step_self {s : State} (h : step s = .next s) (n : Nat) : stepN n s = .next s := by
  induction n with
  | zero => rfl
  | succ n ih => rw [stepN_succ h, ih]

section
variable {s : State} (hbyte : currentByte s = joinFields 0b1110 s.pc)
include hbyte

/-- With the flag clear after the latch update, the `jnc` jumps to where it stands. -/
theorem step_jncSelf_taken (hclear : agedFlag s = false) :
    step s = .next { s with c := false, d := agedLatch s, outcome := some .ok } := by
  rw [step_jnc hbyte, latchUpdate_eq, hclear]
  rfl

/-- With the flag set after the latch update, it falls through. -/
theorem step_jncSelf_not_taken (hset : agedFlag s = true) :
    step s = .next { s with c := true, d := true, pc := s.pc + 1, outcome := some .ok } := by
  rw [step_jnc hbyte, latchUpdate_eq, hset, agedLatch_of_agedFlag hset]
  rfl

end

/-- In the loop only the recorded outcome can still change: a clear flag leaves the latch alone. -/
theorem step_of_inJncSelfLoop {s : State} (h : InJncSelfLoop s) (hok : s.outcome = some .ok) :
    step s = .next s := by
  obtain ⟨hbyte, hc⟩ := h
  rw [step_jncSelf_taken hbyte (agedFlag_of_flag_clear hc), agedLatch_of_flag_clear hc, ← hc, ← hok]

/-- Settles O33: the jump taken leaves `pc` and a clear flag. -/
theorem jncSelfLoopIsNeverLeft : Obligations.JncSelfLoopIsNeverLeft := by
  rintro s t ⟨hbyte, hc⟩ hstep
  rw [step_jncSelf_taken hbyte (agedFlag_of_flag_clear hc)] at hstep
  cases hstep
  exact ⟨⟨hbyte, rfl⟩, rfl⟩

/-- Settles O32: the first step enters the loop with outcome `Ok`, and every later one answers the state
it finds. -/
theorem jncSelfLoopNeverHalts : Obligations.JncSelfLoopNeverHalts := by
  intro s hbyte
  refine ⟨fun hclear n => ?_, step_jncSelf_not_taken hbyte⟩
  have hloop : InJncSelfLoop { s with c := false, d := agedLatch s, outcome := some .ok } :=
    ⟨hbyte, rfl⟩
  rw [stepN_succ (step_jncSelf_taken hbyte hclear)]
  exact stepN_of_step_self (step_of_inJncSelfLoop hloop rfl) n

end Sys2Proof.Proofs

/-! The add instructions (spec/41_add.md R110, R111). -/
namespace Sys2Proof.Proofs

open Sys2Proof.Machine

/-- A step at the byte of an instruction runs that instruction. This holds of `add a, 0` too, whose byte
decodes to `nop`: the two have one meaning (R112). -/
theorem step_of_encodeByte {i : Instr} {s : State} (hbyte : currentByte s = encodeByte i) :
    step s = exec i s := by
  rw [step_eq_exec, hbyte]
  by_cases hzero : i = .addA 0
  · subst hzero
    rfl
  · rw [decodeByte_encodeByte_of_wellFormed i ((wellFormed_iff_ne_addA_zero i).2 hzero)]

/-- An add after the latch update writes its destination, `C`, the aged latch and `pc`. -/
theorem dispatchWith_addTransfer (dst : Dest) (src : Source) (imm : Nibble) (s : State) :
    dispatchWith imm (addTransfer dst src imm) s =
      .next { writeDest dst (add4 (readSource src s) imm).sum s with
        c := (add4 (readSource src s) imm).carry
        d := agedLatch s
        pc := s.pc + 1
        outcome := some .ok } := by
  rw [dispatchWith_eq, addTransfer_eq, latchUpdate_eq]
  cases dst <;> cases src <;> rfl

/-- Settles O16: the add of `A` and the operand into `A`. -/
theorem addAResult : Obligations.AddAResult := by
  intro imm s
  have hexec := dispatchWith_addTransfer .regA .regA imm s
  exact ⟨hexec, fun hbyte => (step_of_encodeByte (i := .addA imm) hbyte).trans hexec⟩

/-- Settles O17: the add of `B` and the operand into `B`. -/
theorem addBResult : Obligations.AddBResult := by
  intro imm s
  have hexec := dispatchWith_addTransfer .regB .regB imm s
  exact ⟨hexec, fun hbyte => (step_of_encodeByte (i := .addB imm) hbyte).trans hexec⟩

end Sys2Proof.Proofs

/-! The move instructions (spec/42_mov.md R120 to R123). -/
namespace Sys2Proof.Proofs

open Sys2Proof.Machine

/-- A copy after the latch update writes its destination, the aged carry pair and `pc`, whatever the
operand field holds. -/
theorem dispatchWith_transfer (dst : Dest) (src : Source) (imm : Nibble) (s : State) :
    dispatchWith imm (transfer dst src) s =
      .next { writeDest dst (readSource src s) s with
        c := agedFlag s
        d := agedLatch s
        pc := s.pc + 1
        outcome := some .ok } := by
  rw [dispatchWith_eq, transfer_eq, latchUpdate_eq]
  cases dst <;> cases src <;> rfl

/-- What an instruction answers is what a step at its byte answers. -/
theorem exec_and_step_of_exec {i : Instr} {s t : State} (hexec : exec i s = .next t) :
    exec i s = .next t ∧ (currentByte s = encodeByte i → step s = .next t) :=
  ⟨hexec, fun hbyte => (step_of_encodeByte hbyte).trans hexec⟩

/-- Settles O20: the copy of `B` into `A`. -/
theorem movABResult : Obligations.MovABResult := fun imm s =>
  exec_and_step_of_exec (i := .movAB imm) (dispatchWith_transfer .regA .regB imm s)

/-- Settles O21: the copy of the operand into `A`. -/
theorem movAImmResult : Obligations.MovAImmResult := fun imm s =>
  exec_and_step_of_exec (i := .movAImm imm) (dispatchWith_transfer .regA (.imm imm) imm s)

/-- Settles O22: the copy of `A` into `B`. -/
theorem movBAResult : Obligations.MovBAResult := fun imm s =>
  exec_and_step_of_exec (i := .movBA imm) (dispatchWith_transfer .regB .regA imm s)

/-- Settles O23: the copy of the operand into `B`. -/
theorem movBImmResult : Obligations.MovBImmResult := fun imm s =>
  exec_and_step_of_exec (i := .movBImm imm) (dispatchWith_transfer .regB (.imm imm) imm s)

end Sys2Proof.Proofs

/-! The port instructions (spec/43_io.md R130 to R134). -/
namespace Sys2Proof.Proofs

open Sys2Proof.Machine

/-- Settles O19: the add of `B` and the operand into `OUT`. -/
theorem outBResult : Obligations.OutBResult := fun imm s =>
  exec_and_step_of_exec (i := .outB imm) (dispatchWith_addTransfer .portOut .regB imm s)

/-- Settles O24: the copy of `IN` into `A`. -/
theorem inAResult : Obligations.InAResult := fun imm s =>
  exec_and_step_of_exec (i := .inA imm) (dispatchWith_transfer .regA .portIn imm s)

/-- Settles O25: the copy of `IN` into `B`. -/
theorem inBResult : Obligations.InBResult := fun imm s =>
  exec_and_step_of_exec (i := .inB imm) (dispatchWith_transfer .regB .portIn imm s)

/-- Settles O26: the copy of the operand into `OUT`. -/
theorem outImmResult : Obligations.OutImmResult := fun imm s =>
  exec_and_step_of_exec (i := .outImm imm) (dispatchWith_transfer .portOut (.imm imm) imm s)

/-- Settles O42: the `in` instructions copy the port cell and keep it, and the later of two host writes
is what the cell holds. -/
theorem inReadsTheLastHostWrite : Obligations.InReadsTheLastHostWrite := by
  intro s imm v w
  have hport : (hostWriteIn w (hostWriteIn v s)).inPort = w := hostWriteIn_inPort w (hostWriteIn v s)
  obtain ⟨hexecA, -⟩ := inAResult imm (hostWriteIn w (hostWriteIn v s))
  obtain ⟨hexecB, -⟩ := inBResult imm (hostWriteIn w (hostWriteIn v s))
  exact ⟨_, _, hexecA, hport, hport, hexecB, hport, hport⟩

end Sys2Proof.Proofs

/-! The jumps and the halt idiom (spec/44_jump.md R140 to R142). -/
namespace Sys2Proof.Proofs

open Sys2Proof.Machine

/-- Settles O27: where `pc` goes is decided by the flag as the latch update left it. -/
theorem jncResult : Obligations.JncResult := by
  intro imm s
  refine exec_and_step_of_exec (i := .jnc imm) ?_
  rw [exec_jnc, latchUpdate_eq]
  cases agedFlag s <;> rfl

/-- Settles O28: the two sides of the halt check. -/
theorem jmpResult : Obligations.JmpResult := by
  refine fun s => ⟨fun imm hne => ?_, exec_jmp_self s⟩
  refine exec_and_step_of_exec (i := .jmp imm) ?_
  rw [exec_jmp_of_ne hne, latchUpdate_eq]

/-- The recorded outcome is no part of the halt idiom, so halting leaves a state that halts again. -/
theorem atHalt_of_step {s t : State} (hhalt : AtHalt s) (hstep : step s = .next t) : AtHalt t := by
  rw [step_of_atHalt hhalt] at hstep
  cases hstep
  exact hhalt

/-- Once the halt is recorded, a step at the halt idiom answers the state it finds. -/
theorem step_self_of_atHalt {s : State} (hhalt : AtHalt s) (hrecorded : s.outcome = some .halted) :
    step s = .next s := by
  rw [step_of_atHalt hhalt, ← hrecorded]

/-- Settles O30: the first step records the halt, and every later one answers the state it finds. -/
theorem haltIsAbsorbing : Obligations.HaltIsAbsorbing := by
  intro s hhalt
  refine ⟨exec_jmp_self s, fun _ => atHalt_of_step hhalt, fun n => ?_⟩
  have hfirst := step_of_atHalt hhalt
  rw [stepN_succ hfirst]
  exact stepN_of_step_self (step_self_of_atHalt (atHalt_of_step hhalt hfirst) rfl) n

end Sys2Proof.Proofs

/-! What the Disassembler prints, as one rule (spec/45_disassembler.md R154): the stem of a row of the
stem table, then the text of the operand. -/
namespace Sys2Proof.Proofs

open Sys2Proof.Machine

theorem disassemble_zero : disassemble 0x00 = "nop" := rfl

theorem disassemble_of_ne_zero {b : Byte} (hb : b ≠ 0x00) :
    disassemble b = renderStem (stemOf (opcodeField b)) (immField b) :=
  if_neg hb

/-- Outside the byte 0x00 the text is the row of the opcode, rendered (R152 to R154). -/
theorem disassemble_joinFields {opcode imm : Nibble} (h : ¬ (opcode = 0 ∧ imm = 0)) :
    disassemble (joinFields opcode imm) = renderStem (stemOf opcode) imm := by
  obtain ⟨hopcode, himm⟩ := Laws.fields_of_join opcode imm
  rw [disassemble_of_ne_zero fun hzero => h (Laws.join_eq_zero opcode imm hzero), hopcode, himm]

/-- Settles O58: only opcode 0000 meets the byte 0x00; every other row is its stem, rendered. -/
theorem disassemblerTable : Obligations.DisassemblerTable := by
  intro imm n plus
  have row0 : disassemble (joinFields 0b0000 imm) = if imm = 0 then "nop" else "add a, " ++ n := by
    split
    · next himm => rw [himm]; exact disassemble_zero
    · next himm => exact disassemble_joinFields fun h => himm h.2
  have row (opcode : Nibble) (h : opcode ≠ 0) :
      disassemble (joinFields opcode imm) = renderStem (stemOf opcode) imm :=
    disassemble_joinFields fun hzero => h hzero.1
  exact ⟨row0, row 0b0001 (by decide), row 0b0010 (by decide), row 0b0011 (by decide),
    row 0b0100 (by decide), row 0b0101 (by decide), row 0b0110 (by decide), row 0b0111 (by decide),
    row 0b1000 (by decide), row 0b1001 (by decide), row 0b1010 (by decide), row 0b1011 (by decide),
    row 0b1100 (by decide), row 0b1101 (by decide), row 0b1110 (by decide), row 0b1111 (by decide)⟩

/-- What is printed of the operand after a stem of the given class (R153, R154). -/
def operandText (shown : StemClass) (imm : Nibble) : String :=
  match shown with
  | .separator | .jumpOrOut => decimalOf imm
  | .plain => if imm = 0 then "" else "+" ++ decimalOf imm

theorem operandText_plain_of_ne {imm : Nibble} (h : imm ≠ 0) :
    operandText .plain imm = "+" ++ decimalOf imm :=
  if_neg h

theorem operandText_plain_eq_empty_iff (imm : Nibble) : operandText .plain imm = "" ↔ imm = 0 := by
  refine ⟨fun hempty => ?_, fun hzero => if_pos hzero⟩
  by_contra hne
  rw [operandText_plain_of_ne hne] at hempty
  simp at hempty

theorem renderStem_eq_append (stem : Stem) (imm : Nibble) :
    renderStem stem imm = stem.text ++ operandText stem.shown imm := by
  obtain ⟨text, shown⟩ := stem
  cases shown with
  | separator => rfl
  | jumpOrOut => rfl
  | plain =>
    by_cases himm : imm = 0
    · rw [(operandText_plain_eq_empty_iff imm).mpr himm, String.append_empty]
      exact if_pos himm
    · rw [operandText_plain_of_ne himm, ← String.append_assoc]
      exact if_neg himm

/-- The row of the stem table a byte is printed by: the byte 0x00 has the text of the illegal opcode
1000 with operand 0 (R151, R156). -/
def printedOpcode (b : Byte) : Nibble := if b = 0x00 then 0b1000 else opcodeField b

theorem disassemble_eq_append (b : Byte) :
    disassemble b = (stemOf (printedOpcode b)).text ++
      operandText (stemOf (printedOpcode b)).shown (immField b) := by
  rw [← renderStem_eq_append, printedOpcode]
  split
  · next hzero => rw [hzero]; rfl
  · next hne => exact disassemble_of_ne_zero hne

end Sys2Proof.Proofs

/-! The length of a text, and the byte read back from it (spec/45_disassembler.md R158). -/
namespace Sys2Proof.Proofs

open Sys2Proof.Machine

/-! The bounds of R158, for the decimal numeral and then for each class of stem. -/

theorem decimalOf_length : ∀ imm : Nibble, 1 ≤ (decimalOf imm).length ∧ (decimalOf imm).length ≤ 2 := by
  decide

theorem operandText_length_le (shown : StemClass) (imm : Nibble) :
    (operandText shown imm).length ≤ 3 := by
  obtain ⟨-, hle⟩ := decimalOf_length imm
  cases shown with
  | separator => exact hle.trans (by decide)
  | jumpOrOut => exact hle.trans (by decide)
  | plain =>
    by_cases himm : imm = 0
    · rw [(operandText_plain_eq_empty_iff imm).mpr himm]
      decide
    · rw [operandText_plain_of_ne himm, String.length_append]
      exact Nat.add_le_add_left hle 1

theorem stemOf_text_length : ∀ opcode : Nibble,
    3 ≤ (stemOf opcode).text.length ∧ (stemOf opcode).text.length ≤ 8 := by
  decide

theorem disassemble_length (b : Byte) :
    3 ≤ (disassemble b).length ∧ (disassemble b).length ≤ 11 := by
  obtain ⟨hmin, hmax⟩ := stemOf_text_length (printedOpcode b)
  have hoperand := operandText_length_le (stemOf (printedOpcode b)).shown (immField b)
  rw [disassemble_eq_append, String.length_append]
  omega

/-- The characters an operand is printed with; no stem holds one of them. -/
def isOperandChar (c : Char) : Bool := c == '+' || c.isDigit

theorem filter_isOperandChar_stem : ∀ opcode : Nibble,
    (stemOf opcode).text.toList.filter isOperandChar = [] := by
  decide

theorem isOperandChar_of_mem_decimalOf {imm : Nibble} {c : Char} (h : c ∈ (decimalOf imm).toList) :
    isOperandChar c = true := by
  have hdigits : (decimalOf imm).toList = Nat.toDigits 10 imm.toNat := String.toList_ofList
  rw [hdigits] at h
  simp [isOperandChar, Nat.isDigit_of_mem_toDigits (by decide) (by decide) h]

theorem isOperandChar_of_mem_operandText {shown : StemClass} {imm : Nibble} {c : Char}
    (h : c ∈ (operandText shown imm).toList) : isOperandChar c = true := by
  cases shown with
  | separator => exact isOperandChar_of_mem_decimalOf h
  | jumpOrOut => exact isOperandChar_of_mem_decimalOf h
  | plain =>
    by_cases himm : imm = 0
    · rw [(operandText_plain_eq_empty_iff imm).mpr himm] at h
      cases h
    · rw [operandText_plain_of_ne himm, String.toList_append, List.mem_append] at h
      obtain hplus | hdigit := h
      · rw [List.mem_singleton.mp hplus]
        rfl
      · exact isOperandChar_of_mem_decimalOf hdigit

/-- A text falls apart in one way only: its operand is what `isOperandChar` keeps of it, and the stem
is the rest. -/
theorem stem_and_operand_of_append_eq {opcode opcode' imm imm' : Nibble} {shown shown' : StemClass}
    (h : (stemOf opcode).text ++ operandText shown imm =
      (stemOf opcode').text ++ operandText shown' imm') :
    (stemOf opcode).text = (stemOf opcode').text ∧ operandText shown imm = operandText shown' imm' := by
  have hoperand (op n : Nibble) (k : StemClass) :
      ((stemOf op).text ++ operandText k n).toList.filter isOperandChar = (operandText k n).toList := by
    rw [String.toList_append, List.filter_append, filter_isOperandChar_stem op,
      List.filter_eq_self.mpr fun c hc => isOperandChar_of_mem_operandText hc, List.nil_append]
  have htail : operandText shown imm = operandText shown' imm' := by
    rw [← String.toList_inj, ← hoperand opcode, ← hoperand opcode', h]
  rw [htail] at h
  exact ⟨(String.append_left_inj _).mp h, htail⟩

theorem decimalOf_injective {imm imm' : Nibble} (h : decimalOf imm = decimalOf imm') : imm = imm' :=
  BitVec.eq_of_toNat_eq (Nat.repr_inj.mp h)

theorem operandText_injective {shown : StemClass} {imm imm' : Nibble}
    (h : operandText shown imm = operandText shown imm') : imm = imm' := by
  cases shown with
  | separator => exact decimalOf_injective h
  | jumpOrOut => exact decimalOf_injective h
  | plain =>
    have hzero : imm = 0 ↔ imm' = 0 := by
      rw [← operandText_plain_eq_empty_iff, h, operandText_plain_eq_empty_iff]
    by_cases himm : imm = 0
    · rw [himm, hzero.mp himm]
    · rw [operandText_plain_of_ne himm, operandText_plain_of_ne (mt hzero.mpr himm)] at h
      exact decimalOf_injective ((String.append_right_inj _).mp h)

/-- The rows by which a byte with a legal opcode is printed: the legal rows, and 1000 for the byte 0x00. -/
def PrintsLegalByte (opcode : Nibble) : Prop := isIllegalOpcode opcode = false ∨ opcode = 0b1000

theorem stemOf_text_injective {opcode opcode' : Nibble} (h : PrintsLegalByte opcode)
    (h' : PrintsLegalByte opcode') (htext : (stemOf opcode).text = (stemOf opcode').text) :
    opcode = opcode' := by
  unfold PrintsLegalByte at h h'
  revert opcode opcode'
  decide

section
variable {b b' : Byte} (hlegal : isIllegalOpcode (opcodeField b) = false)
  (hlegal' : isIllegalOpcode (opcodeField b') = false)
include hlegal

theorem printsLegalByte_printedOpcode : PrintsLegalByte (printedOpcode b) := by
  unfold PrintsLegalByte printedOpcode
  split
  · exact .inr rfl
  · exact .inl hlegal

/-- A legal byte is printed by the row 1000 only when it is the byte 0x00. -/
theorem printedOpcode_eq_1000_iff : printedOpcode b = 0b1000 ↔ b = 0x00 := by
  refine ⟨fun hprinted => ?_, fun hzero => if_pos hzero⟩
  by_contra hne
  rw [printedOpcode, if_neg hne] at hprinted
  rw [hprinted] at hlegal
  exact absurd hlegal (by decide)

include hlegal'

theorem eq_of_printedOpcode_eq (hopcode : printedOpcode b = printedOpcode b')
    (himm : immField b = immField b') : b = b' := by
  have hzero : b = 0x00 ↔ b' = 0x00 := by
    rw [← printedOpcode_eq_1000_iff hlegal, ← printedOpcode_eq_1000_iff hlegal', hopcode]
  by_cases hb : b = 0x00
  · rw [hb, hzero.mp hb]
  · rw [printedOpcode, printedOpcode, if_neg hb, if_neg (mt hzero.mpr hb)] at hopcode
    rw [← joinFields_opcodeField_immField b, hopcode, himm, joinFields_opcodeField_immField]

/-- The text is cut into stem and operand, the stem gives the row, and row and operand the byte. -/
theorem eq_of_disassemble_eq (h : disassemble b = disassemble b') : b = b' := by
  rw [disassemble_eq_append, disassemble_eq_append] at h
  obtain ⟨hstem, hoperand⟩ := stem_and_operand_of_append_eq h
  have hopcode : printedOpcode b = printedOpcode b' := stemOf_text_injective
    (printsLegalByte_printedOpcode hlegal) (printsLegalByte_printedOpcode hlegal') hstem
  rw [hopcode] at hoperand
  exact eq_of_printedOpcode_eq hlegal hlegal' hopcode (operandText_injective hoperand)

end

/-- Settles O59: the length from the parts of the text, the byte by reading those parts back. -/
theorem disassemblyDeterminesLegalBytes : Obligations.DisassemblyDeterminesLegalBytes :=
  ⟨disassemble_length, fun _ _ hlegal hlegal' => eq_of_disassemble_eq hlegal hlegal'⟩

end Sys2Proof.Proofs

/-! The loader (spec/60_exceptions.md R174, spec/70_reset_and_hazards.md R203). -/
namespace Sys2Proof.Proofs

open Sys2Proof.Machine

section
variable {image : List Byte}

theorem loadImage_of_fits (h : image.length ≤ Config.storeSize) :
    loadImage image = .ok (Memory.ofBytes 0 image) :=
  if_pos h

theorem loadImage_of_too_long (h : Config.storeSize < image.length) :
    loadImage image = .error .romOverflow :=
  if_neg (Nat.not_le.2 h)

theorem construct_of_loaded {m : Memory} (h : loadImage image = .ok m) :
    construct image = .ok { State.reset with prog := m } := by
  simp only [construct, installImage, h]

theorem construct_of_refused {e : LoadError} (h : loadImage image = .error e) :
    construct image = .error e := by
  simp only [construct, installImage, h]

end

/-- Address by address, a store made from an image holds its bytes and then the padding. -/
theorem read_ofBytes (image : List Byte) (addr : Nibble) :
    Memory.read (Memory.ofBytes 0 image) addr.toNat = .ok (image.getD addr.toNat 0x00) := by
  have hpeek := peek_ofBytes image 0 addr.toNat
  rw [Nat.zero_add] at hpeek
  rw [read_of_lt (nibble_lt_storeSize addr), hpeek]
  rfl

/-- Settles O46: the two answers of the loader, and the Engine constructed from each. -/
theorem loadedImageReadsBack : Obligations.LoadedImageReadsBack := by
  refine fun image => ⟨fun hfits => ?_, fun hlong => ?_⟩
  · have hload := loadImage_of_fits hfits
    exact ⟨_, hload, wf_of_loadImage hload, construct_of_loaded hload, read_ofBytes image⟩
  · have hload := loadImage_of_too_long hlong
    exact ⟨hload, construct_of_refused hload⟩

end Sys2Proof.Proofs

/-! Runs as repeated steps (spec/60_exceptions.md R183, R185): a bounded run either completes its steps,
all `Ok`, or comes to a first failure; and each case fixes how the run ends. -/
namespace Sys2Proof.Proofs

open Sys2Proof.Machine

/-- Within `n` steps from `s`, the first step that does not return `Ok` returns `o` and leaves `t`. -/
def FirstFailure (n : Nat) (s t : State) (o : StepOutcome) : Prop :=
  o ≠ .ok ∧ t.outcome = some o ∧
    ∃ (k : Nat) (u : State), k < n ∧ AllStepsOk k s ∧ stepN k s = .next u ∧ step u = .next t

section
variable {n : Nat} {s t u : State} {o : StepOutcome}

/-- A failure at the first step is the first failure within any positive bound. -/
theorem FirstFailure.of_step (hstep : step s = .next t) (ho : t.outcome = some o) (hne : o ≠ .ok) :
    FirstFailure (n + 1) s t o :=
  ⟨hne, ho, 0, s, Nat.succ_pos n, allStepsOk_zero s, rfl, hstep⟩

/-- The first failure after an `Ok` step is the first failure from before it. -/
theorem FirstFailure.cons (h : FirstFailure n u t o) (hstep : step s = .next u)
    (hok : u.outcome = some .ok) : FirstFailure (n + 1) s t o := by
  obtain ⟨hne, ho, k, v, hk, hall, hsteps, hfail⟩ := h
  exact ⟨hne, ho, k + 1, v, Nat.succ_lt_succ hk, (allStepsOk_succ hstep k).2 ⟨hok, hall⟩,
    (stepN_succ hstep k).trans hsteps, hfail⟩

/-- `n` steps all return `Ok`, or there is a first failure among them. -/
theorem allStepsOk_or_firstFailure (n : Nat) (s : State) :
    (∃ t, AllStepsOk n s ∧ stepN n s = .next t) ∨ ∃ t o, FirstFailure n s t o := by
  induction n generalizing s with
  | zero => exact .inl ⟨s, allStepsOk_zero s, rfl⟩
  | succ n ih =>
    obtain ⟨u, o, hstep, ho⟩ := step_completes s
    by_cases hok : o = .ok
    · subst hok
      rcases ih u with ⟨t, hall, hsteps⟩ | ⟨t, o, hfirst⟩
      · exact .inl ⟨t, (allStepsOk_succ hstep n).2 ⟨ho, hall⟩, (stepN_succ hstep n).trans hsteps⟩
      · exact .inr ⟨t, o, hfirst.cons hstep ho⟩
    · exact .inr ⟨u, o, .of_step hstep ho hok⟩

/-- A run is carried through `Ok` steps to the state they reach, with what is left of its bound. -/
theorem runFor_add_of_allStepsOk {k : Nat} (hall : AllStepsOk k s) (hsteps : stepN k s = .next u)
    (m : Nat) : runFor (m + k) s = runFor m u := by
  induction k generalizing s with
  | zero =>
    cases hsteps
    rfl
  | succ k ih =>
    obtain ⟨v, -, hstep, -⟩ := step_completes s
    obtain ⟨hok, hrest⟩ := (allStepsOk_succ hstep k).1 hall
    rw [stepN_succ hstep] at hsteps
    calc runFor (m + k + 1) s = runFor (m + k) v := runFor_succ_ok hstep hok (m + k)
      _ = runFor m u := ih hrest hsteps

/-- A run whose steps all return `Ok` is stopped by its bound. -/
theorem runFor_stopped_of_allStepsOk (hall : AllStepsOk n s) (hsteps : stepN n s = .next t) :
    runFor n s = .next (t, .stopped) := by
  have hrun := runFor_add_of_allStepsOk hall hsteps 0
  rwa [Nat.zero_add] at hrun

/-- A first failure is delivered. -/
theorem runFor_delivered_of_firstFailure (h : FirstFailure n s t o) :
    runFor n s = .next (t, .delivered o) := by
  obtain ⟨hne, ho, k, u, hk, hall, hsteps, hfail⟩ := h
  obtain ⟨m, rfl⟩ : ∃ m, n = m + 1 + k := ⟨n - k - 1, by omega⟩
  rw [runFor_add_of_allStepsOk hall hsteps, runFor_succ_delivered hfail ho hne]

theorem runFor_stopped_iff :
    runFor n s = .next (t, .stopped) ↔ AllStepsOk n s ∧ stepN n s = .next t := by
  refine ⟨fun hrun => ?_, fun ⟨hall, hsteps⟩ => runFor_stopped_of_allStepsOk hall hsteps⟩
  rcases allStepsOk_or_firstFailure n s with ⟨t', hall, hsteps⟩ | ⟨t', o, hfirst⟩
  · rw [runFor_stopped_of_allStepsOk hall hsteps] at hrun
    cases hrun
    exact ⟨hall, hsteps⟩
  · rw [runFor_delivered_of_firstFailure hfirst] at hrun
    cases hrun

theorem runFor_delivered_iff : runFor n s = .next (t, .delivered o) ↔ FirstFailure n s t o := by
  refine ⟨fun hrun => ?_, runFor_delivered_of_firstFailure⟩
  rcases allStepsOk_or_firstFailure n s with ⟨t', hall, hsteps⟩ | ⟨t', o', hfirst⟩
  · rw [runFor_stopped_of_allStepsOk hall hsteps] at hrun
    cases hrun
  · rw [runFor_delivered_of_firstFailure hfirst] at hrun
    cases hrun
    exact hfirst

end

theorem runFor_ends (n : Nat) (s : State) :
    ∃ (t : State) (e : RunEnd), runFor n s = .next (t, e) := by
  rcases allStepsOk_or_firstFailure n s with ⟨t, hall, hsteps⟩ | ⟨t, o, hfirst⟩
  · exact ⟨t, _, runFor_stopped_of_allStepsOk hall hsteps⟩
  · exact ⟨t, _, runFor_delivered_of_firstFailure hfirst⟩

/-- Settles O47: a run ends in one of two ways, and is stopped exactly when no step failed. -/
theorem runIsIteratedStep : Obligations.RunIsIteratedStep :=
  fun n s => ⟨runFor_ends n s, fun _ => runFor_stopped_iff⟩

/-- Settles O48: a run delivers an outcome exactly when it is the first failure. -/
theorem runDeliversItsFirstFailure : Obligations.RunDeliversItsFirstFailure :=
  fun _ _ _ _ => ⟨runFor_delivered_iff.1, fun k u hk hall hsteps hfail ho hne =>
    runFor_delivered_iff.2 ⟨hne, ho, k, u, hk, hall, hsteps, hfail⟩⟩

end Sys2Proof.Proofs

/-! The console's run: its next step, `stop` and the exit, and what was delivered
(spec/60_exceptions.md R183 to R185). -/
namespace Sys2Proof.Proofs

open Sys2Proof.Machine

/-- Settles O49: the step completes, and its outcome decides whether the run goes on. -/
theorem activeRunStepsUntilItFails : Obligations.ActiveRunStepsUntilItFails := by
  intro k stopRequested hphase
  obtain ⟨t, o, hstep, ho⟩ := step_completes k.engine
  refine ⟨t, o, hstep, ho, ?_, act_runStep_of_ne_ok hphase hstep ho⟩
  rintro rfl
  exact act_runStep_of_ok hphase hstep ho

section
variable {k k' : Console}

theorem act_stop_of_idle (h : k.phase = .idle) : act .stop k = .done k := by
  simp only [act, consoleStop, h]

theorem act_stop_of_active {stopRequested : Bool} (h : k.phase = .active stopRequested) :
    act .stop k = .done { k with phase := .active true } := by
  simp only [act, consoleStop, h]

theorem act_runExit_of_stop_requested (h : k.phase = .active true) :
    act .runExit k = .done { k with phase := .idle } := by
  simp only [act, consoleRunExit, h]

theorem act_stop_idempotent (h : act .stop k = .done k') : act .stop k' = .done k' := by
  cases hphase : k.phase with
  | idle =>
    rw [act_stop_of_idle hphase] at h
    cases h
    exact act_stop_of_idle hphase
  | active stopRequested =>
    rw [act_stop_of_active hphase] at h
    cases h
    exact act_stop_of_active rfl

/-- A run exits at the wait boundary only when it was asked to stop (R184). -/
theorem stop_requested_of_act_runExit (h : act .runExit k = .done k') :
    k.phase = .active true ∧ k' = { k with phase := .idle } := by
  simp only [act, consoleRunExit] at h
  split at h <;> cases h
  next hphase => exact ⟨hphase, rfl⟩

end

/-- Settles O50: `stop` by the phase it finds, and the exit it allows. -/
theorem stopRules : Obligations.StopRules := fun _ _ =>
  ⟨act_stop_of_idle,
    fun _ hphase => ⟨act_stop_of_active hphase, act_runExit_of_stop_requested rfl⟩,
    fun hstop => ⟨act_stop_idempotent hstop, consoleStop_engine hstop⟩,
    stop_requested_of_act_runExit, act_runExit_of_stop_requested⟩

/-- The action left the host's bookkeeping of runs as it was. -/
def KeepsRun (k k' : Console) : Prop := k'.phase = k.phase ∧ k'.delivered = k.delivered

section
variable {k k' : Console}

theorem keepsRun_of_act_step (h : act .step k = .done k') : KeepsRun k k' := by
  cases hphase : k.phase with
  | active stopRequested =>
    rw [act_step_of_active hphase] at h
    cases h
  | idle =>
    obtain ⟨t, -, hstep, -⟩ := step_completes k.engine
    simp only [act, consoleStep, hphase, hstep] at h
    cases h
    exact ⟨hphase.symm, rfl⟩

theorem keepsRun_of_act_edit {addr : Nibble} {byte : Byte} (h : act (.edit addr byte) k = .done k') :
    KeepsRun k k' := by
  simp only [act, consoleEdit] at h
  split at h <;> cases h
  exact ⟨rfl, rfl⟩

theorem keepsRun_of_act_install {image : List Byte} (h : act (.install image) k = .done k') :
    KeepsRun k k' := by
  simp only [act, consoleInstall] at h
  split at h
  · cases h
  · split at h <;> cases h
    exact ⟨rfl, rfl⟩

/-- A run's step keeps the run going as it was, or ends it. -/
theorem keepsRun_or_idle_of_act_runStep (h : act .runStep k = .done k') :
    KeepsRun k k' ∨ k'.phase = .idle := by
  cases hphase : k.phase with
  | idle =>
    simp only [act, consoleRunStep, hphase] at h
    cases h
  | active stopRequested =>
    obtain ⟨t, o, hstep, ho⟩ := step_completes k.engine
    by_cases hok : o = .ok
    · subst hok
      rw [act_runStep_of_ok hphase hstep ho] at h
      cases h
      exact .inl ⟨rfl, rfl⟩
    · rw [act_runStep_of_ne_ok hphase hstep ho hok] at h
      cases h
      exact .inr rfl

theorem delivered_of_act_startRun (h : act .startRun k = .done k') : k'.delivered = none := by
  simp only [act, consoleStartRun] at h
  split at h <;> cases h
  rfl

/-- `stop` starts no run and delivers nothing. -/
theorem keeps_delivered_of_act_stop (h : act .stop k = .done k') (hactive : k'.phase ≠ .idle) :
    k.phase ≠ .idle ∧ k'.delivered = k.delivered := by
  cases hphase : k.phase with
  | idle =>
    rw [act_stop_of_idle hphase] at h
    cases h
    exact absurd hphase hactive
  | active stopRequested =>
    rw [act_stop_of_active hphase] at h
    cases h
    exact ⟨nofun, rfl⟩

/-- A run that is active after an action was started by it, with nothing delivered, or was active before
it, with the same delivered. -/
theorem delivered_of_act_of_active {x : Action} (h : act x k = .done k') (hactive : k'.phase ≠ .idle) :
    k'.delivered = none ∨ (k.phase ≠ .idle ∧ k'.delivered = k.delivered) := by
  have hkept : KeepsRun k k' → k.phase ≠ .idle ∧ k'.delivered = k.delivered := by
    rintro ⟨hphase, hdelivered⟩
    exact ⟨hphase ▸ hactive, hdelivered⟩
  cases x with
  | reset | writeIn _ | debugA _ | debugB _ | debugOut _ | debugC _ | debugPc _ =>
    cases h
    exact .inr ⟨hactive, rfl⟩
  | step => exact .inr (hkept (keepsRun_of_act_step h))
  | edit addr byte => exact .inr (hkept (keepsRun_of_act_edit h))
  | install image => exact .inr (hkept (keepsRun_of_act_install h))
  | startRun => exact .inl (delivered_of_act_startRun h)
  | runStep => exact .inr (hkept ((keepsRun_or_idle_of_act_runStep h).resolve_right hactive))
  | stop => exact .inr (keeps_delivered_of_act_stop h hactive)
  | runExit =>
    obtain ⟨-, rfl⟩ := stop_requested_of_act_runExit h
    exact absurd rfl hactive

end

/-- Settles O52: an active run has what was delivered at its start, which is nothing. -/
theorem activeRunHasDeliveredNothing : Obligations.ActiveRunHasDeliveredNothing := by
  intro x k k' hnone hact hactive
  rcases delivered_of_act_of_active hact hactive with hstarted | ⟨hbefore, hsame⟩
  · exact hstarted
  · exact hsame.trans (hnone hbefore)

end Sys2Proof.Proofs

/-! Re-stepping an illegal opcode, and what survives `reset` (spec/70_reset_and_hazards.md R217, R200). -/
namespace Sys2Proof.Proofs

open Sys2Proof.Machine

section
variable {op : Nibble} {s : State} (h : AtIllegal op s)
include h

/-- An attempt from `(1, 0)` arms the latch. -/
theorem step_of_atIllegal_of_fresh (hc : s.c = true) (hd : s.d = false) :
    step s = .next { s with d := true, outcome := some (.invalidOpcode op) } := by
  rw [step_of_atIllegal h, agedFlag_of_fresh hc hd, agedLatch_of_flag_set hc, hc, hd]
  rfl

/-- An attempt from `(1, 1)` drops the flag and disarms the latch. -/
theorem step_of_atIllegal_of_armed (hc : s.c = true) (hd : s.d = true) :
    step s = .next { s with c := false, d := false, outcome := some (.invalidOpcode op) } := by
  rw [step_of_atIllegal h, agedFlag_of_latch_set hd, agedLatch_of_flag_set hc, hd]
  rfl

/-- With the flag clear and the outcome recorded, an attempt answers the state it finds. -/
theorem step_self_of_atIllegal (hc : s.c = false) (hrecorded : s.outcome = some (.invalidOpcode op)) :
    step s = .next s := by
  rw [step_of_atIllegal h, agedFlag_of_flag_clear hc, agedLatch_of_flag_clear hc, ← hc, ← hrecorded]

/-- An attempt moves neither `pc` nor the byte it addresses, so the next one finds the same opcode. -/
theorem atIllegal_of_step {t : State} (hstep : step s = .next t) : AtIllegal op t := by
  rw [step_of_atIllegal h] at hstep
  cases hstep
  exact h

/-- From `(1, 0)` the first attempt reaches `(1, 1)`, the second `(0, 0)`, and every later one answers
the state it finds. -/
theorem stepN_of_atIllegal_of_fresh (hc : s.c = true) (hd : s.d = false) (n : Nat) :
    stepN (n + 2) s =
      .next { s with c := false, d := false, outcome := some (.invalidOpcode op) } := by
  have hfirst := step_of_atIllegal_of_fresh h hc hd
  have harmed := atIllegal_of_step h hfirst
  have hsecond := step_of_atIllegal_of_armed harmed hc rfl
  have hspent := atIllegal_of_step harmed hsecond
  rw [stepN_succ hfirst, stepN_succ hsecond]
  exact stepN_of_step_self (step_self_of_atIllegal hspent rfl rfl) n

end

/-- Settles O31: one attempt by the step at an illegal opcode, the rest by iterating it. -/
theorem reSteppingAnIllegalOpcodeAgesTheFlag : Obligations.ReSteppingAnIllegalOpcodeAgesTheFlag :=
  fun _ _ h => ⟨step_of_atIllegal h, fun hc hd =>
    ⟨step_of_atIllegal_of_fresh h hc hd, stepN_of_atIllegal_of_fresh h hc hd⟩⟩

/-- After `reset` the next fetch is from address 0 of the store that was there. -/
theorem currentByte_resetMachine (s : State) :
    currentByte (resetMachine s) = Memory.peek s.prog 0 := rfl

/-- Settles O40: the fields of the reset state, and the step at the byte it fetches. -/
theorem resetClearsAllButTheProgram : Obligations.ResetClearsAllButTheProgram := by
  refine fun s => ⟨resetMachine_a s, resetMachine_b s, resetMachine_inPort s, resetMachine_outPort s,
    resetMachine_pc s, resetMachine_c s, resetMachine_d s, resetMachine_prog s,
    currentByte_resetMachine s, ?_⟩
  rw [step_eq_exec, currentByte_resetMachine]

end Sys2Proof.Proofs
